-- ==== Sys2Proof/Word.lean ====
section
/-!
DEFINITION. The words of the block: 8-bit and 32-bit registers, and bit strings (spec 00_scope.md R10 to R12).
-/

namespace Sys2Proof

/-- An 8-bit field or register (10_state.md R26). -/
abbrev Byte := BitVec 8

/-- A 32-bit word: CTRL, RESP0, RESP1 (20_memory.md R52). -/
abbrev Word := BitVec 32

/-- A bit string, element 0 first (00_scope.md R10). -/
abbrev Bits := List Bool

end Sys2Proof
end

