-- ==== Sys2Proof/Syntax.lean ====
section
/-!
DEFINITION. The nine operations of the block, one constructor for each row of spec/opcode_table.json
(30_encoding.md R73). An operand is an unsigned integer (30_encoding.md R72), so a `Nat`; its bound by the width of its
field is in WellFormed.lean. A field that an operation ignores is no operand of it (log entry 10), and the bit string of
PLC, PAR, ENC, SYN and DEC comes from DIN, so only its length stands here.
-/

namespace Sys2Proof

inductive Instr where
  /-- `PCD m`: parity count for a message length (40_layout.md R104). -/
  | pcd (m : Nat)
  /-- `PCC n`: parity count for a codeword length (40_layout.md R105). -/
  | pcc (n : Nat)
  /-- `POS r`: parity positions as a mask (40_layout.md R106). -/
  | pos (r : Nat)
  /-- `PLC bits, r`: place data bits, m = |bits| (41_placement_parity.md R126). -/
  | plc (m r : Nat)
  /-- `PAR bits, r`: compute the parity vector, n = |bits| (41_placement_parity.md R127). -/
  | par (n r : Nat)
  /-- `ENC bits`: encode a message, m = |bits| (42_encoder.md R141). -/
  | enc (m : Nat)
  /-- `SYN bits`: syndrome of a received codeword, n = |bits| (43_decoder.md R158). -/
  | syn (n : Nat)
  /-- `LOC n, s`: locate the bit a syndrome names (43_decoder.md R159). -/
  | loc (n s : Nat)
  /-- `DEC bits`: decode a received codeword, n = |bits| (43_decoder.md R160). -/
  | dec (n : Nat)
  deriving DecidableEq, Repr

end Sys2Proof
end

