-- ==== Sys2Proof/WellFormed.lean ====
section
/-!
DEFINITION. An operation is well formed when each operand fits its 8-bit field of CTRL (30_encoding.md R71, R72).
An operand that is in range for its field and too large for its operation is well formed: it is a legal encoding, and
the operation answers it with InvalidInput (30_encoding.md R76).
-/

namespace Sys2Proof

/-- The value fits an 8-bit field of CTRL (30_encoding.md R71). -/
abbrev fitsField (v : Nat) : Bool := decide (v < 256)

/-- Every operand fits its field. -/
def Instr.wellFormed : Instr → Bool
  | .pcd m => fitsField m
  | .pcc n => fitsField n
  | .pos r => fitsField r
  | .plc m r => fitsField m && fitsField r
  | .par n r => fitsField n && fitsField r
  | .enc m => fitsField m
  | .syn n => fitsField n
  | .loc n s => fitsField n && fitsField s
  | .dec n => fitsField n

end Sys2Proof
end

