-- ==== Sys2Proof/Decode.lean ====
section
/-!
DEFINITION. The control word CTRL: its fields, its decoding and its encoding (30_encoding.md R70 to R77, R79).
There is one 32-bit format and no byte order (20_memory.md R52), so a decoder reads a word, not bytes.
-/

namespace Sys2Proof

/-! ### The fields of CTRL (30_encoding.md R71) -/

/-- OP, bits 3..0. -/
def ctrlOp (w : Word) : BitVec 4 := w.extractLsb' 0 4

/-- RSV0, bits 7..4. -/
def ctrlRsv0 (w : Word) : BitVec 4 := w.extractLsb' 4 4

/-- LEN, bits 15..8, as the unsigned integer it stands for (30_encoding.md R72). -/
def ctrlLen (w : Word) : Nat := (w.extractLsb' 8 8).toNat

/-- ARG, bits 23..16, as the unsigned integer it stands for (30_encoding.md R72). -/
def ctrlArg (w : Word) : Nat := (w.extractLsb' 16 8).toNat

/-- RSV1, bits 31..24. -/
def ctrlRsv1 (w : Word) : Byte := w.extractLsb' 24 8

/-! ### Decoding -/

/-- Why a control word selects no operation (30_encoding.md R76). Each is the fault IllegalOp at the block
(60_exceptions.md R203). -/
inductive DecodeReject where
  /-- RSV1 or RSV0 is not 0. -/
  | reservedNonzero
  /-- OP is 0 or 10 to 15. -/
  | noSuchOp
  deriving DecidableEq, Repr

/-- Decoding a control word (30_encoding.md R74): the reserved fields first, then OP. -/
def decode (w : Word) : Except DecodeReject Instr :=
  if ctrlRsv1 w ≠ 0 ∨ ctrlRsv0 w ≠ 0 then .error .reservedNonzero
  else
    match (ctrlOp w).toNat with
    | 1 => .ok (.pcd (ctrlLen w))
    | 2 => .ok (.pcc (ctrlLen w))
    | 3 => .ok (.pos (ctrlArg w))
    | 4 => .ok (.plc (ctrlLen w) (ctrlArg w))
    | 5 => .ok (.par (ctrlLen w) (ctrlArg w))
    | 6 => .ok (.enc (ctrlLen w))
    | 7 => .ok (.syn (ctrlLen w))
    | 8 => .ok (.loc (ctrlLen w) (ctrlArg w))
    | 9 => .ok (.dec (ctrlLen w))
    | _ => .error .noSuchOp

/-! ### Encoding -/

/-- `CTRL = (ARG << 16) or (LEN << 8) or OP`, the reserved fields 0 (30_encoding.md R79). -/
def ctrlWord (op len arg : Nat) : Word :=
  BitVec.ofNat 32 arg <<< 16 ||| BitVec.ofNat 32 len <<< 8 ||| BitVec.ofNat 32 op

/-- The operation code of an operation (30_encoding.md R73). -/
def Instr.opcode : Instr → Nat
  | .pcd _ => 1
  | .pcc _ => 2
  | .pos _ => 3
  | .plc _ _ => 4
  | .par _ _ => 5
  | .enc _ => 6
  | .syn _ => 7
  | .loc _ _ => 8
  | .dec _ => 9

/-- The LEN field of an assembled operation; 0 where LEN is ignored (30_encoding.md R78, R79). -/
def Instr.lenField : Instr → Nat
  | .pcd m => m
  | .pcc n => n
  | .pos _ => 0
  | .plc m _ => m
  | .par n _ => n
  | .enc m => m
  | .syn n => n
  | .loc n _ => n
  | .dec n => n

/-- The ARG field of an assembled operation; 0 where ARG is ignored (30_encoding.md R78, R79). -/
def Instr.argField : Instr → Nat
  | .pcd _ => 0
  | .pcc _ => 0
  | .pos r => r
  | .plc _ r => r
  | .par _ r => r
  | .enc _ => 0
  | .syn _ => 0
  | .loc _ s => s
  | .dec _ => 0

/-- The control word of a well-formed operation (30_encoding.md R79). -/
def encode (i : Instr) : Word := ctrlWord i.opcode i.lenField i.argField

/-- The length of the bit string that an operation reads from DIN; 0 for the operations that ignore DIN
(10_state.md R25). -/
def Instr.dinLength : Instr → Nat
  | .pcd _ => 0
  | .pcc _ => 0
  | .pos _ => 0
  | .plc m _ => m
  | .par n _ => n
  | .enc m => m
  | .syn n => n
  | .loc _ _ => 0
  | .dec n => n

/-- The operation the decoder reads from the `nbits` bits `w` of an instruction, every higher bit 0. -/
def decodeTableWord (nbits w : Nat) : Option Instr :=
  match decode (BitVec.ofNat 32 (w % 2 ^ nbits)) with
  | .ok i => some i
  | .error _ => none

end Sys2Proof
end

