-- ==== Sys2Proof/Config.lean ====
section
/-!
DEFINITION. What the building of the block fixes (00_scope.md R7), and the one free value of the model
(70_reset_and_hazards.md R235).
-/

namespace Sys2Proof

/-- The build parameter `N_MAX`, the largest codeword length the block accepts: 3 to 255 and nothing else
(00_scope.md R7, log entry 1). The bounds stand in the type, so no state is of a build the spec does not have. -/
structure Config where
  nMax : Nat
  three_le : 3 ≤ nMax
  le_255 : nMax ≤ 255
  deriving DecidableEq, Repr

/-- The reference configuration, `N_MAX = 255` (00_scope.md R7). -/
def Config.reference : Config where
  nMax := 255
  three_le := by decide
  le_255 := by decide

/-- A FREE VALUE (log entry 5): the bits that the `draw`-th register of an unspecified response shows, for a register
`w` bits wide (70_reset_and_hazards.md R235: "every output register may hold any value of its width"). It has no body:
nothing can be proved of what it is. -/
opaque Config.freeBits : (draw : Nat) → (w : Nat) → BitVec w

end Sys2Proof
end

