-- ==== Sys2Proof/Machine/State.lean ====
section
/-!
DEFINITION. The state of the block: its output registers (10_state.md R26), the input ports as the host drives them
(R23), the build it is of (00_scope.md R7), and what the host does next (70_reset_and_hazards.md R238). Plain data.
-/

namespace Sys2Proof.Machine

/-! ### The reasons a step stops -/

/-- The spec gives every request a response and every interaction of the host an effect (10_state.md R40,
60_exceptions.md R205, R206), so NOTHING stops this block: the type has no constructor (log entry 8). The spec's three
fault kinds are responses, `FaultKind` below, taken by `raiseFault`. -/
inductive Fault where
  deriving DecidableEq, Repr

/-- An instruction the model has no meaning for. No arm of `exec` raises it: safe. -/
inductive Refusal where
  /-- Raised by an arm of `exec` that has no meaning yet; there is none. Safe: the model stops where the block goes on. -/
  | notModelled (mnemonic : String)
  deriving DecidableEq, Repr

/-! ### The named values of STATUS and FAULT -/

/-- The kinds of fault (60_exceptions.md R200). -/
inductive FaultKind where
  | invalidInput
  | lengthMismatch
  | illegalOp
  deriving DecidableEq, Repr

/-- The four values of the 2-bit register FAULT (10_state.md R28). -/
inductive FaultCode where
  | ok
  | invalidInput
  | lengthMismatch
  | illegalOp
  deriving DecidableEq, Repr

/-- The four values of the 2-bit register STATUS (10_state.md R27). -/
inductive Status where
  | noError
  | corrected
  | uncorrectable
  | none
  deriving DecidableEq, Repr

/-! ### The output registers -/

/-- The output registers of a block with `N_MAX = n` (10_state.md R26). -/
structure Outputs (n : Nat) where
  /-- RVALID: a response has been produced since reset (10_state.md R30). -/
  rvalid : Bool
  /-- FAULT: the fault code of the last response (10_state.md R28). -/
  fault : FaultCode
  /-- STATUS: the decode status of the last response (10_state.md R27). -/
  status : Status
  /-- CVALID: COUT holds a corrected codeword (10_state.md R29). -/
  cvalid : Bool
  /-- DLEN: the length of the bit string in DOUT (10_state.md R31). -/
  dlen : Byte
  /-- DOUT: the primary bit-string result (10_state.md R31). -/
  dout : BitVec n
  /-- COUT: the corrected codeword of DEC (10_state.md R32). -/
  cout : BitVec n
  /-- ROUT: the parity count r (10_state.md R33). -/
  rout : Byte
  /-- POUT: a parity vector (10_state.md R34). -/
  pout : Byte
  /-- SYN: a syndrome (10_state.md R35). -/
  syn : Byte
  /-- IDX: the index of the located bit (10_state.md R36). -/
  idx : Byte
  deriving DecidableEq, Repr

/-- What the host can read: the registers of 10_state.md R26 and the packed words of R37 and R38. -/
inductive OutReg where
  | rvalid | fault | status | cvalid | dlen | dout | cout | rout | pout | syn | idx | resp0 | resp1
  deriving DecidableEq, Repr

/-! ### What the host does -/

/-- What happens between the acceptance of a request and its response (possible only in a build with LATENCY > 0,
70_reset_and_hazards.md R231, R234). The request and its response are one step of the model (10_state.md R40), so the
request carries it (log entry 4). -/
inductive Flight (n : Nat) where
  /-- The host kept CTRL and DIN unchanged and presented no other request: the obligation of R234 is kept. With
  LATENCY = 0 there is nothing else. -/
  | undisturbed
  /-- The host changed CTRL or DIN before the response was complete, and drives these values at its end: R234 is
  broken (log entry 6). -/
  | portsChanged (ctrl : Word) (din : BitVec n)
  /-- The host presented another request before the response was complete: R234 is broken (log entry 7). -/
  | overlapped
  /-- Reset arrived before the response was complete, whatever else happened: the request is abandoned (R231). -/
  | resetArrives
  deriving DecidableEq, Repr

/-- One interaction of the host (70_reset_and_hazards.md R238). -/
inductive HostEvent (n : Nat) where
  /-- Drive these values on the input ports (10_state.md R23). -/
  | drive (ctrl : Word) (din : BitVec n)
  /-- Present the request that stands on the ports. -/
  | request (flight : Flight n)
  /-- Read an output (20_memory.md R56). -/
  | read (reg : OutReg)
  /-- Try to write an output (10_state.md R39). -/
  | write (reg : OutReg) (value : Nat)
  /-- The reset event, no request being in flight (70_reset_and_hazards.md R230). -/
  | reset
  deriving DecidableEq, Repr

/-! ### The state -/

/-- The state of one block and of the host that drives it. -/
structure State where
  /-- The build: `N_MAX` (00_scope.md R7). No step writes it. -/
  cfg : Config
  /-- The input port CTRL as the host drives it (10_state.md R23). -/
  ctrl : Word
  /-- The input port DIN as the host drives it (10_state.md R23). -/
  din : BitVec cfg.nMax
  /-- The output registers (10_state.md R26). -/
  out : Outputs cfg.nMax
  /-- What the host does next, oldest first (log entry 3). The model's own field. -/
  host : List (HostEvent cfg.nMax)
  /-- How many free values have been drawn (log entry 5). The model's own field. -/
  draws : Nat
  deriving DecidableEq, Repr

/-- The output registers after reset (10_state.md R45). -/
def Outputs.reset (n : Nat) : Outputs n where
  rvalid := false
  fault := .ok
  status := .none
  cvalid := false
  dlen := 0
  dout := 0
  cout := 0
  rout := 0
  pout := 0
  syn := 0
  idx := 0

/-- The machine right after reset: the reference build (00_scope.md R7), the output registers at their reset values
(10_state.md R45), the ports at the values of log entry 2, and no interaction of the host yet. -/
def State.reset : State where
  cfg := Config.reference
  ctrl := 0
  din := 0
  out := Outputs.reset Config.reference.nMax
  host := []
  draws := 0

end Sys2Proof.Machine
end

