-- ==== Sys2Proof/Machine/Codec.lean ====
section
/-!
DEFINITION. The pure functions of the codec, each once (00_scope.md R13): the parity layout (40_layout.md R100 to R102),
placement and parity (41_placement_parity.md R120 to R125), the encoder (42_encoder.md R140), and the decoder's parts
(43_decoder.md R150 to R157). They are of bit strings of any length; `nMax` is the build parameter where a rule names it.
-/

namespace Sys2Proof.Machine

/-! ### Parity layout (40_layout.md) -/

/-- The first number from `r` upward that `p` holds of, giving up after `fuel` numbers. -/
def searchUp (p : Nat → Bool) : (fuel r : Nat) → Nat
  | 0, r => r
  | fuel + 1, r => if p r then r else searchUp p fuel (r + 1)

/-- `PCD(m)`, the least r with 2^r >= m + r + 1, "searching upward from r = 0" (40_layout.md R100). The search ends by
r = m + 1 (`pcd_spec`). -/
def pcd (m : Nat) : Nat := searchUp (fun r => decide (2 ^ r ≥ m + r + 1)) (m + 1) 0

/-- `PCC(n)`, the least r with 2^r >= n + 1 (40_layout.md R101). The search ends by r = n (`pcc_spec`). -/
def pcc (n : Nat) : Nat := searchUp (fun r => decide (2 ^ r ≥ n + 1)) n 0

/-- `Pos(r)`, the parity positions in ascending order (40_layout.md R102). -/
def pos (r : Nat) : List Nat := (List.range r).map fun k => 2 ^ k - 1

/-- `IsPar(r, i)`: the index is a parity position (40_layout.md R102). -/
def isPar (r i : Nat) : Bool := (pos r).contains i

/-- `R_MAX` (00_scope.md R8). -/
def rMax (nMax : Nat) : Nat := pcc nMax

/-- The largest number up to the bound that `p` holds of; 0 if there is none above it. -/
def largestUpTo (p : Nat → Bool) : (bound : Nat) → Nat
  | 0 => 0
  | b + 1 => if p (b + 1) then b + 1 else largestUpTo p b

/-- `M_MAX`, the largest m with m + PCD(m) <= N_MAX (00_scope.md R8). -/
def mMax (nMax : Nat) : Nat := largestUpTo (fun m => decide (m + pcd m ≤ nMax)) nMax

/-- The mask that POS answers with: long enough to hold every position, ones at the positions (40_layout.md R106). -/
def posMaskLength (r : Nat) : Nat := if r = 0 then 0 else 2 ^ (r - 1)

/-- The mask of the parity positions (40_layout.md R106). -/
def posMask (r : Nat) : Bits := (List.range (posMaskLength r)).map (isPar r)

/-! ### Placement (41_placement_parity.md) -/

/-- The buffer from index `i` on, `count` slots long: 0 at a parity position, the next bit of `b` at a data slot, 0 when
no bit is left (41_placement_parity.md R120). -/
def placeFrom (r : Nat) : (i count : Nat) → (b : Bits) → Bits
  | _, 0, _ => []
  | i, count + 1, b =>
    if isPar r i then false :: placeFrom r (i + 1) count b
    else
      match b with
      | [] => false :: placeFrom r (i + 1) count []
      | x :: xs => x :: placeFrom r (i + 1) count xs

/-- `Place(b, r)` (41_placement_parity.md R120). -/
def place (b : Bits) (r : Nat) : Bits := placeFrom r 0 (b.length + r) b

/-! ### Parity over coverage groups (41_placement_parity.md) -/

/-- `Covers(p, i)`: index `i` is in an included block of parity position `p` (41_placement_parity.md R122). -/
def covers (p i : Nat) : Bool := decide (i ≥ p) && decide ((i - p) / (p + 1) % 2 = 0)

/-- XOR over the bits of `c` whose index is covered by `p`, `c` standing at index `i` on. -/
def groupParityFrom (p : Nat) : (i : Nat) → (c : Bits) → Bool
  | _, [] => false
  | i, x :: xs => (covers p i && x) ^^ groupParityFrom p (i + 1) xs

/-- The even parity of the coverage group of `p` in `c` (41_placement_parity.md R125). -/
def groupParity (p : Nat) (c : Bits) : Bool := groupParityFrom p 0 c

/-- `Parities(c, r)`, element k for the position 2^k - 1 (41_placement_parity.md R125). -/
def parities (c : Bits) (r : Nat) : Bits := (List.range r).map fun k => groupParity (2 ^ k - 1) c

/-! ### Encoder (42_encoder.md) -/

/-- Step 4 of `Encode`: parity k into index 2^k - 1, in ascending order (42_encoder.md R140). -/
def writeParities : (k : Nat) → (p : Bits) → (c : Bits) → Bits
  | _, [], c => c
  | k, x :: xs, c => writeParities (k + 1) xs (c.set (2 ^ k - 1) x)

/-- What `Encode` returns: the codeword and its parity vector (42_encoder.md R140). -/
structure Encoded where
  codeword : Bits
  parity : Bits
  deriving DecidableEq, Repr

/-- Steps 1 to 4 of `Encode`, for a message that is not empty (42_encoder.md R140). -/
def encodeBits (b : Bits) : Encoded :=
  let r := pcd b.length
  let c := place b r
  let p := parities c r
  { codeword := writeParities 0 p c, parity := p }

/-- `Encode(b)` (42_encoder.md R140). -/
def encodeMessage (b : Bits) : Except FaultKind Encoded :=
  if b.length = 0 then .error .invalidInput else .ok (encodeBits b)

/-! ### Syndrome generator (43_decoder.md) -/

/-- The bits of `c` at data slots, `c` standing at index `i` on. -/
def extractFrom (r : Nat) : (i : Nat) → (c : Bits) → Bits
  | _, [] => []
  | i, x :: xs => if isPar r i then extractFrom r (i + 1) xs else x :: extractFrom r (i + 1) xs

/-- `Extract(c, r)`: the bits at the data slots, in order (43_decoder.md R150). -/
def extract (c : Bits) (r : Nat) : Bits := extractFrom r 0 c

/-- `ParBits(c, r)`: the bits at the parity positions, in order (43_decoder.md R151). -/
def parBits (c : Bits) (r : Nat) : Bits := (pos r).map fun p => c.getD p false

/-- `CheckLength(n)` in a build with that `nMax` (43_decoder.md R152). -/
def checkLength (nMax n : Nat) : Except FaultKind Nat :=
  if n = 0 ∨ n > nMax then .error .invalidInput
  else if n - pcc n = 0 then .error .invalidInput
  else if pcd (n - pcc n) ≠ pcc n then .error .lengthMismatch
  else .ok (pcc n)

/-- The unsigned integer whose bit k is element k of the bit string (43_decoder.md R154, 20_memory.md R51). -/
def natOfBits : Bits → Nat
  | [] => 0
  | x :: xs => x.toNat + 2 * natOfBits xs

/-- What `Syndrome` returns (43_decoder.md R154). -/
structure SyndromeResult where
  /-- r, the parity count -/
  r : Nat
  /-- d, the candidate message -/
  data : Bits
  /-- E, the expected parity -/
  expected : Bits
  /-- s, the syndrome -/
  syndrome : Nat
  deriving DecidableEq, Repr

/-- `Syndrome(c)` in a build with that `nMax` (43_decoder.md R154). -/
def syndrome (nMax : Nat) (c : Bits) : Except FaultKind SyndromeResult := do
  let r ← checkLength nMax c.length
  let d := extract c r
  let q := parBits c r
  let enc ← encodeMessage d
  let e := List.zipWith Bool.xor q enc.parity
  return { r := r, data := d, expected := enc.parity, syndrome := natOfBits e }

/-! ### Error locator and decoder (43_decoder.md) -/

/-- `Locate(n, s)`: the status and the zero-based index of the bit to flip (43_decoder.md R156). -/
def locate (n s : Nat) : Status × Option Nat :=
  if s = 0 then (.noError, none)
  else if s ≤ n then (.corrected, some (s - 1))
  else (.uncorrectable, none)

/-- A bit string with one bit flipped: `c with [i] <- 1 - c[i]` (00_scope.md R10, 43_decoder.md R157). -/
def flipBit (c : Bits) (i : Nat) : Bits := c.set i (!c.getD i false)

/-- What `Decode` returns (43_decoder.md R157). -/
structure Decoded where
  status : Status
  message : Bits
  corrected : Option Bits
  deriving DecidableEq, Repr

/-- `Decode(c)` in a build with that `nMax` (43_decoder.md R157). -/
def decodeCodeword (nMax : Nat) (c : Bits) : Except FaultKind Decoded := do
  let y ← syndrome nMax c
  match locate c.length y.syndrome with
  | (.corrected, some i) =>
    let c2 := flipBit c i
    return { status := .corrected, message := extract c2 y.r, corrected := some c2 }
  | (st, _) => return { status := st, message := y.data, corrected := none }

end Sys2Proof.Machine
end

