-- ==== Sys2Proof/Machine/Operands.lean ====
section
/-!
DEFINITION. Bit strings on the vector ports (20_memory.md R51, R53) and the bit-string operand of a request
(30_encoding.md R72). The integer operands are the fields of the decoded operation.
-/

namespace Sys2Proof.Machine

/-- A bit string on a vector port of that width: element j on bit j, 0 above it (20_memory.md R51, 10_state.md R31). -/
def toPort (width : Nat) (b : Bits) : BitVec width := BitVec.ofNat width (natOfBits b)

/-- The bit string of that length on a vector port, from bit 0 upward (20_memory.md R51, R55). -/
def fromPort {width : Nat} (v : BitVec width) (len : Nat) : Bits := (List.range len).map v.getLsbD

/-- The bit-string operand `[DIN[0], ..., DIN[LEN - 1]]` (30_encoding.md R72). -/
def State.operandBits (s : State) (len : Nat) : Bits := fromPort s.din len

/-- An unsigned integer in an 8-bit register (20_memory.md R52). -/
def toByte (v : Nat) : Byte := BitVec.ofNat 8 v

/-- A parity vector on POUT: element k on bit k (20_memory.md R53). -/
def toPout (p : Bits) : Byte := toPort 8 p

end Sys2Proof.Machine
end

