-- ==== Sys2Proof/Machine/Flags.lean ====
section
/-!
DEFINITION. The flags STATUS, FAULT, CVALID and RVALID (10_state.md R41), their codes (R27, R28), and the packed words
RESP0 and RESP1 that show them (R37, R38).
-/

namespace Sys2Proof.Machine

/-- The code of a status (10_state.md R27). -/
def Status.code : Status → BitVec 2
  | .noError => 0
  | .corrected => 1
  | .uncorrectable => 2
  | .none => 3

/-- The status with that code. -/
def Status.ofCode (c : BitVec 2) : Status :=
  match c.toNat with
  | 0 => .noError
  | 1 => .corrected
  | 2 => .uncorrectable
  | _ => .none

/-- The code of a FAULT value (10_state.md R28). -/
def FaultCode.code : FaultCode → BitVec 2
  | .ok => 0
  | .invalidInput => 1
  | .lengthMismatch => 2
  | .illegalOp => 3

/-- The FAULT value with that code. -/
def FaultCode.ofCode (c : BitVec 2) : FaultCode :=
  match c.toNat with
  | 0 => .ok
  | 1 => .invalidInput
  | 2 => .lengthMismatch
  | _ => .illegalOp

/-- `code(kind)`: what a fault writes to FAULT (60_exceptions.md R200, R205). -/
def FaultKind.toCode : FaultKind → FaultCode
  | .invalidInput => .invalidInput
  | .lengthMismatch => .lengthMismatch
  | .illegalOp => .illegalOp

/-- The packed word RESP0 (10_state.md R37): SYN, ROUT, DLEN, two zeros, RVALID, CVALID, FAULT, STATUS, from bit 31
down. -/
def Outputs.resp0 {n : Nat} (o : Outputs n) : Word :=
  o.syn ++ o.rout ++ o.dlen ++ 0#2 ++ BitVec.ofBool o.rvalid ++ BitVec.ofBool o.cvalid ++ o.fault.code ++ o.status.code

/-- The packed word RESP1 (10_state.md R38): sixteen zeros, POUT, IDX, from bit 31 down. -/
def Outputs.resp1 {n : Nat} (o : Outputs n) : Word := 0#16 ++ o.pout ++ o.idx

/-- The width of what the host reads (10_state.md R26, R37, R38). -/
def OutReg.width (n : Nat) : OutReg → Nat
  | .rvalid => 1
  | .fault => 2
  | .status => 2
  | .cvalid => 1
  | .dlen => 8
  | .dout => n
  | .cout => n
  | .rout => 8
  | .pout => 8
  | .syn => 8
  | .idx => 8
  | .resp0 => 32
  | .resp1 => 32

/-- What the host reads from an output (10_state.md R26, R37, R38, R39). -/
def Outputs.read {n : Nat} (o : Outputs n) : (reg : OutReg) → BitVec (reg.width n)
  | .rvalid => BitVec.ofBool o.rvalid
  | .fault => o.fault.code
  | .status => o.status.code
  | .cvalid => BitVec.ofBool o.cvalid
  | .dlen => o.dlen
  | .dout => o.dout
  | .cout => o.cout
  | .rout => o.rout
  | .pout => o.pout
  | .syn => o.syn
  | .idx => o.idx
  | .resp0 => o.resp0
  | .resp1 => o.resp1

end Sys2Proof.Machine
end

