-- ==== Sys2Proof/Machine/Ops.lean ====
section
/-!
DEFINITION. The operations every meaning shares: completing a response (10_state.md R40), raising a fault
(60_exceptions.md R205), resetting the outputs (70_reset_and_hazards.md R230), and the unspecified response of a broken
obligation (R235).
-/

namespace Sys2Proof.Machine

/-- A response with nothing assigned: RVALID 1, STATUS None, FAULT OK, every other register 0 (10_state.md R40). A
meaning assigns its own registers over it. -/
def Outputs.unassigned (n : Nat) : Outputs n where
  rvalid := true
  fault := .ok
  status := .none
  cvalid := false
  dlen := 0
  dout := 0
  cout := 0
  rout := 0
  pout := 0
  syn := 0
  idx := 0

/-- The response replaces every output register at once, and nothing else (10_state.md R40). -/
@[reducible] def State.withOut (s : State) (o : Outputs s.cfg.nMax) : State := { s with out := o }

/-- The end of an operation without fault: its response (10_state.md R40). -/
def respond (s : State) (o : Outputs s.cfg.nMax) : Host.Outcome State Fault Refusal := .next (s.withOut o)

/-- `FaultResponse(kind)` (60_exceptions.md R205). -/
def Outputs.faultResponse (n : Nat) (k : FaultKind) : Outputs n :=
  { Outputs.unassigned n with fault := k.toCode }

/-- `raise Fault(kind)`: the operation ends with the fault response and nothing it computed is kept (00_scope.md R13,
60_exceptions.md R205). No control is transferred and nothing is saved (R206), so there is no return from it (R207). -/
def raiseFault (k : FaultKind) (s : State) : Host.Outcome State Fault Refusal :=
  respond s (Outputs.faultResponse s.cfg.nMax k)

/-- Reset: every output register takes its reset value, and reset has no other effect (70_reset_and_hazards.md R230). -/
def State.resetOutputs (s : State) : State := s.withOut (Outputs.reset s.cfg.nMax)

/-- The host drives the input ports (10_state.md R23). -/
@[reducible] def State.drivePorts (s : State) (ctrl : Word) (din : BitVec s.cfg.nMax) : State := { s with ctrl := ctrl, din := din }

/-- Every output register at a free value of its width, drawn from the `draw`-th on (70_reset_and_hazards.md R235). -/
def Outputs.unspecified (n draw : Nat) : Outputs n where
  rvalid := (Config.freeBits draw 1).getLsbD 0
  fault := .ofCode (Config.freeBits (draw + 1) 2)
  status := .ofCode (Config.freeBits (draw + 2) 2)
  cvalid := (Config.freeBits (draw + 3) 1).getLsbD 0
  dlen := Config.freeBits (draw + 4) 8
  dout := Config.freeBits (draw + 5) n
  cout := Config.freeBits (draw + 6) n
  rout := Config.freeBits (draw + 7) 8
  pout := Config.freeBits (draw + 8) 8
  syn := Config.freeBits (draw + 9) 8
  idx := Config.freeBits (draw + 10) 8

/-- The response of a request in whose flight the host broke its obligation: any value in every output register, and
eleven free values drawn (70_reset_and_hazards.md R235). -/
def State.withUnspecifiedOutputs (s : State) : State :=
  { s with out := Outputs.unspecified s.cfg.nMax s.draws, draws := s.draws + 11 }

end Sys2Proof.Machine
end

