-- ==== Sys2Proof/Machine/Decoder.lean ====
section
/-!
DEFINITION. The decoder family: SYN, LOC, DEC (43_decoder.md R158 to R160).
-/

namespace Sys2Proof.Machine

/-- SYN: generate the syndrome of a received codeword (43_decoder.md R158). -/
def execSyn (n : Nat) (s : State) : Host.Outcome State Fault Refusal :=
  match syndrome s.cfg.nMax (s.operandBits n) with
  | .error k => raiseFault k s
  | .ok y =>
    respond s { Outputs.unassigned s.cfg.nMax with
      dout := toPort s.cfg.nMax y.data
      dlen := toByte (n - y.r)
      pout := toPout y.expected
      rout := toByte y.r
      syn := toByte y.syndrome }

/-- LOC: locate the single erroneous bit a syndrome names (43_decoder.md R159). -/
def execLoc (n sy : Nat) (s : State) : Host.Outcome State Fault Refusal :=
  if n = 0 ∨ n > s.cfg.nMax then raiseFault .invalidInput s
  else
    respond s { Outputs.unassigned s.cfg.nMax with
      status := (locate n sy).1
      idx := toByte ((locate n sy).2.getD 0)
      syn := toByte sy }

/-- The registers that DEC assigns, from the three results its rule names (43_decoder.md R160). COUT, CVALID and IDX are
assigned only with a corrected codeword. -/
def decResponse (nMax n : Nat) (y : SyndromeResult) (idx : Option Nat) (d : Decoded) : Outputs nMax :=
  { Outputs.unassigned nMax with
    dout := toPort nMax d.message
    dlen := toByte (n - y.r)
    status := d.status
    cvalid := d.corrected.isSome
    cout := toPort nMax (d.corrected.getD [])
    idx := toByte (idx.getD 0)
    pout := toPout y.expected
    rout := toByte y.r
    syn := toByte y.syndrome }

/-- DEC: decode a received codeword (43_decoder.md R160). -/
def execDec (n : Nat) (s : State) : Host.Outcome State Fault Refusal :=
  let c := s.operandBits n
  match syndrome s.cfg.nMax c, decodeCodeword s.cfg.nMax c with
  | .error k, _ => raiseFault k s
  | .ok _, .error k => raiseFault k s
  | .ok y, .ok d => respond s (decResponse s.cfg.nMax n y (locate n y.syndrome).2 d)

end Sys2Proof.Machine
end

