-- ==== Sys2Proof/Machine/Encoder.lean ====
section
/-!
DEFINITION. The encoder: ENC (42_encoder.md R141, R143).
-/

namespace Sys2Proof.Machine

/-- ENC: encode a message (42_encoder.md R141). -/
def execEnc (m : Nat) (s : State) : Host.Outcome State Fault Refusal :=
  if m = 0 ∨ m > mMax s.cfg.nMax then raiseFault .invalidInput s
  else
    match encodeMessage (s.operandBits m) with
    | .error k => raiseFault k s
    | .ok e =>
      respond s { Outputs.unassigned s.cfg.nMax with
        dout := toPort s.cfg.nMax e.codeword
        dlen := toByte (m + pcd m)
        pout := toPout e.parity
        rout := toByte (pcd m) }

end Sys2Proof.Machine
end

