-- ==== Sys2Proof/Machine/Layout.lean ====
section
/-!
DEFINITION. The layout family: PCD, PCC, POS (40_layout.md R104 to R106).
-/

namespace Sys2Proof.Machine

/-- PCD: parity count for a message length (40_layout.md R104). -/
def execPcd (m : Nat) (s : State) : Host.Outcome State Fault Refusal :=
  respond s { Outputs.unassigned s.cfg.nMax with rout := toByte (pcd m) }

/-- PCC: parity count for a codeword length (40_layout.md R105). -/
def execPcc (n : Nat) (s : State) : Host.Outcome State Fault Refusal :=
  respond s { Outputs.unassigned s.cfg.nMax with rout := toByte (pcc n) }

/-- POS: parity positions as a mask (40_layout.md R106). -/
def execPos (r : Nat) (s : State) : Host.Outcome State Fault Refusal :=
  if r > rMax s.cfg.nMax then raiseFault .invalidInput s
  else
    respond s { Outputs.unassigned s.cfg.nMax with
      dout := toPort s.cfg.nMax (posMask r)
      dlen := toByte (posMaskLength r)
      rout := toByte r }

end Sys2Proof.Machine
end

