-- ==== Sys2Proof/Machine/Placement.lean ====
section
/-!
DEFINITION. The placement and parity family: PLC, PAR (41_placement_parity.md R126, R127).
-/

namespace Sys2Proof.Machine

/-- PLC: place data bits (41_placement_parity.md R126). -/
def execPlc (m r : Nat) (s : State) : Host.Outcome State Fault Refusal :=
  if r > rMax s.cfg.nMax ∨ m + r > s.cfg.nMax then raiseFault .invalidInput s
  else
    respond s { Outputs.unassigned s.cfg.nMax with
      dout := toPort s.cfg.nMax (place (s.operandBits m) r)
      dlen := toByte (m + r)
      rout := toByte r }

/-- PAR: compute the parity vector (41_placement_parity.md R127). -/
def execPar (n r : Nat) (s : State) : Host.Outcome State Fault Refusal :=
  if n > s.cfg.nMax ∨ r > rMax s.cfg.nMax then raiseFault .invalidInput s
  else
    respond s { Outputs.unassigned s.cfg.nMax with
      pout := toPout (parities (s.operandBits n) r)
      rout := toByte r }

end Sys2Proof.Machine
end

