-- ==== Sys2Proof/Machine/Dispatch.lean ====
section
/-!
DEFINITION. One arm for each operation of the opcode table (30_encoding.md R73).
-/

namespace Sys2Proof.Machine

def exec (i : Instr) (s : State) : Host.Outcome State Fault Refusal :=
  match i with
  | .pcd m => Sys2Proof.Machine.execPcd m s
  | .pcc n => Sys2Proof.Machine.execPcc n s
  | .pos r => Sys2Proof.Machine.execPos r s
  | .plc m r => Sys2Proof.Machine.execPlc m r s
  | .par n r => Sys2Proof.Machine.execPar n r s
  | .enc m => Sys2Proof.Machine.execEnc m s
  | .syn n => Sys2Proof.Machine.execSyn n s
  | .loc n sy => Sys2Proof.Machine.execLoc n sy s
  | .dec n => Sys2Proof.Machine.execDec n s

end Sys2Proof.Machine
end

