-- ==== Sys2Proof/Machine/Request.lean ====
section
/-!
DEFINITION. What each interaction of the host makes the block do (70_reset_and_hazards.md R238), for the step of
Step.lean to call.
-/

namespace Sys2Proof.Machine

/-- `Response(CTRL, DIN)`: the request that stands on the ports, decoded and executed; a control word that names no
operation raises IllegalOp before any operand is looked at (10_state.md R40, 60_exceptions.md R203, R204). -/
def runRequest (s : State) : Host.Outcome State Fault Refusal :=
  match decode s.ctrl with
  | .ok i => exec i s
  | .error _ => raiseFault .illegalOp s

/-- The request and what happened while it was in flight (70_reset_and_hazards.md R231, R234, R235). -/
def acceptRequest (s : State) : Flight s.cfg.nMax → Host.Outcome State Fault Refusal
  | .undisturbed => runRequest s
  | .portsChanged ctrl din => .next ((s.drivePorts ctrl din).withUnspecifiedOutputs)
  | .overlapped => .next s.withUnspecifiedOutputs
  | .resetArrives => .next s.resetOutputs

/-- One interaction of the host (70_reset_and_hazards.md R238). Reading has no side effect (20_memory.md R56) and a write
to an output is ignored (10_state.md R39). -/
def interact (s : State) : HostEvent s.cfg.nMax → Host.Outcome State Fault Refusal
  | .drive ctrl din => .next (s.drivePorts ctrl din)
  | .request flight => acceptRequest s flight
  | .read _ => .next s
  | .write _ _ => .next s
  | .reset => .next s.resetOutputs

/-- The state with the host's coming interactions replaced. -/
@[reducible] def State.withHost (s : State) (h : List (HostEvent s.cfg.nMax)) : State := { s with host := h }

end Sys2Proof.Machine
end

