-- ==== Sys2Proof/Machine/Step.lean ====
section
/-!
DEFINITION. One step: the host's oldest coming interaction happens, whole (10_state.md R40). With none left the block
holds its outputs (60_exceptions.md R215).
-/

namespace Sys2Proof.Machine

/-- One step of the block and its host. -/
def step (s : State) : Host.Outcome State Fault Refusal :=
  match s.host with
  | [] => .next s
  | e :: rest => interact (s.withHost rest) e

/-- The state with the `nbits` bits `w` on CTRL and an undisturbed request to be presented next (log entry 3): the block
fetches nothing (20_memory.md R64), and this is how an operation comes to it. DIN and the rest stay as they are. -/
def State.withFetchWord (s : State) (nbits w : Nat) : State :=
  { s with ctrl := BitVec.ofNat 32 (w % 2 ^ nbits), host := .request .undisturbed :: s.host }

end Sys2Proof.Machine
end

