-- ==== Sys2Proof/Machine/Assembler.lean ====
section
/-!
DEFINITION. The assembly syntax of requests: its lines, assembling and disassembling (30_encoding.md R78 to R80), and the
lines as text (log entry 12).
-/

namespace Sys2Proof.Machine

/-- A line of assembly: the forms of 30_encoding.md R78, and the form the disassembler prints for an illegal word (R79). -/
inductive AsmLine where
  | pcd (m : Nat)
  | pcc (n : Nat)
  | pos (r : Nat)
  | plc (bits : Bits) (r : Nat)
  | par (bits : Bits) (r : Nat)
  | enc (bits : Bits)
  | syn (bits : Bits)
  | loc (n s : Nat)
  | dec (bits : Bits)
  | word (ctrl : Word)
  deriving DecidableEq, Repr

/-- The operation of a line, or the illegal word that a `.word` line stands for (30_encoding.md R78, R79). -/
def AsmLine.instr : AsmLine → Except Word Instr
  | .pcd m => .ok (.pcd m)
  | .pcc n => .ok (.pcc n)
  | .pos r => .ok (.pos r)
  | .plc b r => .ok (.plc b.length r)
  | .par b r => .ok (.par b.length r)
  | .enc b => .ok (.enc b.length)
  | .syn b => .ok (.syn b.length)
  | .loc n s => .ok (.loc n s)
  | .dec b => .ok (.dec b.length)
  | .word w => .error w

/-- The bit string a line puts on DIN; empty where it has none (30_encoding.md R78). DESIGN CHOICE (log entry 18): a
`.word` line, which R78 does not list and R79 only has printed, has none, so it assembles with DIN = 0. -/
def AsmLine.bits : AsmLine → Bits
  | .pcd _ => []
  | .pcc _ => []
  | .pos _ => []
  | .plc b _ => b
  | .par b _ => b
  | .enc b => b
  | .syn b => b
  | .loc _ _ => []
  | .dec b => b
  | .word _ => []

/-- The CTRL word of a line (30_encoding.md R79); the word itself for a `.word` line (log entry 18). -/
def AsmLine.ctrl (l : AsmLine) : Word :=
  match l.instr with
  | .ok i => encode i
  | .error w => w

/-- Assembling a line: CTRL, and DIN with element j on bit j and 0 above (30_encoding.md R79). -/
def assemble (nMax : Nat) (l : AsmLine) : Word × BitVec nMax := (l.ctrl, toPort nMax l.bits)

/-- Every operand fits its field, the bit string fits DIN, and a `.word` line stands for an illegal word. -/
def AsmLine.fits (nMax : Nat) (l : AsmLine) : Bool :=
  decide (l.bits.length ≤ nMax) &&
    match l.instr with
    | .ok i => i.wellFormed
    | .error w => (decode w).toOption.isNone

/-- Disassembling a request: a legal word in the form of R78, its bit string read from DIN[0] to DIN[LEN - 1], an
illegal word as `.word` (30_encoding.md R79). DESIGN CHOICE (log entry 17): where LEN > N_MAX, which a build with
N_MAX < 255 allows, DIN[N_MAX] to DIN[LEN - 1] do not exist and R79 is silent; those elements are printed as 0, and
`parseLine` refuses the line. -/
def disassemble {nMax : Nat} (ctrl : Word) (din : BitVec nMax) : AsmLine :=
  match decode ctrl with
  | .error _ => .word ctrl
  | .ok (.pcd m) => .pcd m
  | .ok (.pcc n) => .pcc n
  | .ok (.pos r) => .pos r
  | .ok (.plc m r) => .plc (fromPort din m) r
  | .ok (.par n r) => .par (fromPort din n) r
  | .ok (.enc m) => .enc (fromPort din m)
  | .ok (.syn n) => .syn (fromPort din n)
  | .ok (.loc n s) => .loc n s
  | .ok (.dec n) => .dec (fromPort din n)

/-! ### Lines as text (30_encoding.md R78, R79), a text being a list of characters -/

/-- A bit string as its elements, element 0 first; `""` for the empty one. -/
def bitsText (b : Bits) : List Char :=
  if b = [] then ['"', '"'] else b.map fun x => if x then '1' else '0'

/-- Eight hex digits, the most significant first. -/
def hexText (w : Word) : List Char :=
  (List.range 8).map fun k => Nat.digitChar ((w.toNat >>> (4 * (7 - k))) % 16) |>.toUpper

/-- The mnemonic of a line (30_encoding.md R73, R78). -/
def AsmLine.mnemonicText : AsmLine → List Char
  | .pcd _ => ['P', 'C', 'D']
  | .pcc _ => ['P', 'C', 'C']
  | .pos _ => ['P', 'O', 'S']
  | .plc _ _ => ['P', 'L', 'C']
  | .par _ _ => ['P', 'A', 'R']
  | .enc _ => ['E', 'N', 'C']
  | .syn _ => ['S', 'Y', 'N']
  | .loc _ _ => ['L', 'O', 'C']
  | .dec _ => ['D', 'E', 'C']
  | .word _ => ['.', 'w', 'o', 'r', 'd']

/-- Two operands separated by a comma (30_encoding.md R78, log entry 12). -/
def pairText (a b : List Char) : List Char := a ++ ',' :: ' ' :: b

/-- The operands of a line (30_encoding.md R78, R79). -/
def AsmLine.operandsText : AsmLine → List Char
  | .pcd m => Nat.toDigits 10 m
  | .pcc n => Nat.toDigits 10 n
  | .pos r => Nat.toDigits 10 r
  | .plc b r => pairText (bitsText b) (Nat.toDigits 10 r)
  | .par b r => pairText (bitsText b) (Nat.toDigits 10 r)
  | .enc b => bitsText b
  | .syn b => bitsText b
  | .loc n s => pairText (Nat.toDigits 10 n) (Nat.toDigits 10 s)
  | .dec b => bitsText b
  | .word w => '0' :: 'x' :: hexText w

/-- The text of a line: the mnemonic, one blank, the operands (30_encoding.md R78, log entry 12). -/
def AsmLine.text (l : AsmLine) : List Char := l.mnemonicText ++ ' ' :: l.operandsText

/-- The value of a digit of a base up to 16. -/
def digitValue (base : Nat) (c : Char) : Option Nat :=
  let v :=
    if '0' ≤ c ∧ c ≤ '9' then c.toNat - '0'.toNat
    else if 'A' ≤ c ∧ c ≤ 'F' then c.toNat - 'A'.toNat + 10
    else if 'a' ≤ c ∧ c ≤ 'f' then c.toNat - 'a'.toNat + 10
    else base
  if v < base then some v else none

/-- The number that a text of digits stands for, the digits before it standing for `acc`. -/
def numberFrom (base : Nat) : (acc : Nat) → List Char → Option Nat
  | acc, [] => some acc
  | acc, c :: cs => (digitValue base c).bind fun v => numberFrom base (acc * base + v) cs

/-- A number of at least one digit. -/
def parseNumber (base : Nat) (t : List Char) : Option Nat := if t = [] then none else numberFrom base 0 t

/-- A bit string of characters 0 and 1; `""` is the empty one. -/
def parseBits (t : List Char) : Option Bits :=
  if t = ['"', '"'] then some []
  else if t = [] then none
  else t.mapM fun c => if c = '1' then some true else if c = '0' then some false else none

/-- The text before the first such character, and what follows that character. -/
def splitAtChar (c : Char) : List Char → List Char × List Char
  | [] => ([], [])
  | x :: xs => if x = c then ([], xs) else ((x :: (splitAtChar c xs).1), (splitAtChar c xs).2)

/-- Two operands separated by a comma, blanks around it left out. -/
def operandPair (t : List Char) : List Char × List Char :=
  let (a, b) := splitAtChar ',' t
  (a.filter (· ≠ ' '), b.filter (· ≠ ' '))

/-- The line that a mnemonic and the text of its operands stand for, whatever their size. -/
def lineOf (mnemonic operands : List Char) : Option AsmLine :=
  let (a, b) := operandPair operands
  let one (l : Option AsmLine) : Option AsmLine := if b = [] ∧ ',' ∉ operands then l else none
  match mnemonic with
  | ['P', 'C', 'D'] => one ((parseNumber 10 a).map .pcd)
  | ['P', 'C', 'C'] => one ((parseNumber 10 a).map .pcc)
  | ['P', 'O', 'S'] => one ((parseNumber 10 a).map .pos)
  | ['P', 'L', 'C'] => (parseBits a).bind fun x => (parseNumber 10 b).map (.plc x)
  | ['P', 'A', 'R'] => (parseBits a).bind fun x => (parseNumber 10 b).map (.par x)
  | ['E', 'N', 'C'] => one ((parseBits a).map .enc)
  | ['S', 'Y', 'N'] => one ((parseBits a).map .syn)
  | ['L', 'O', 'C'] => (parseNumber 10 a).bind fun x => (parseNumber 10 b).map (.loc x)
  | ['D', 'E', 'C'] => one ((parseBits a).map .dec)
  | ['.', 'w', 'o', 'r', 'd'] =>
    match a with
    | '0' :: 'x' :: h => one (if h.length = 8 then (parseNumber 16 h).map fun v => .word (BitVec.ofNat 32 v) else none)
    | _ => none
  | _ => none

/-- A text read as a line: the mnemonic, one blank, the operands (30_encoding.md R78); none where it is no line of the
syntax or an operand does not fit a build with that `nMax`. -/
def parseLine (nMax : Nat) (t : List Char) : Option AsmLine :=
  let (mnemonic, operands) := splitAtChar ' ' t
  match lineOf mnemonic operands with
  | some l => if l.fits nMax then some l else none
  | none => none

end Sys2Proof.Machine
end

