-- ==== Sys2Proof/Safety.lean ====
section
/-!
DEFINITION. What counts as a sound state of the block, and the spec's own words in the terms that claims use: list
comprehensions over indices, least numbers, counts of ones. None of it calls the machine's loops.
-/

namespace Sys2Proof.Machine

/-! ### The host's obligation (70_reset_and_hazards.md R234) -/

/-- The host kept its obligation while the request was in flight, or reset ended the request (R231, R234). -/
def Flight.keepsObligation {n : Nat} : Flight n → Bool
  | .undisturbed => true
  | .portsChanged _ _ => false
  | .overlapped => false
  | .resetArrives => true

/-- The interaction breaks no obligation of the host. -/
def HostEvent.keepsObligation {n : Nat} : HostEvent n → Bool
  | .request flight => flight.keepsObligation
  | .drive _ _ => true
  | .read _ => true
  | .write _ _ => true
  | .reset => true

/-! ### Sound states -/

/-- What the output registers of one block say together, whichever response (or reset) wrote them last. -/
structure Outputs.Consistent {n : Nat} (o : Outputs n) : Prop where
  /-- DLEN <= N_MAX (10_state.md R31). -/
  dlen_le : o.dlen.toNat ≤ n
  /-- DOUT[j] = 0 for j >= DLEN (10_state.md R31). -/
  dout_above : ∀ j, o.dlen.toNat ≤ j → o.dout.getLsbD j = false
  /-- CVALID only with status Corrected (10_state.md R29). -/
  cvalid_corrected : o.cvalid = true → o.status = .corrected
  /-- COUT is all 0 when CVALID = 0 (10_state.md R32). -/
  cout_zero : o.cvalid = false → o.cout = 0
  /-- A fault leaves the fault response and nothing else (60_exceptions.md R205). -/
  fault_image : ∀ k : FaultKind, o.fault = k.toCode → o = Outputs.faultResponse n k
  /-- RVALID = 0 only with the reset values (10_state.md R30). -/
  reset_image : o.rvalid = false → o = Outputs.reset n
  /-- Corrected: the syndrome is the one-based position of index IDX (10_state.md R36). -/
  idx_corrected : o.status = .corrected → o.idx.toNat + 1 = o.syn.toNat
  /-- IDX = 0 under every other status (10_state.md R36). -/
  idx_zero : o.status ≠ .corrected → o.idx = 0
  /-- NoError means syndrome 0 (43_decoder.md R156). -/
  noError_syn : o.status = .noError → o.syn = 0
  /-- Uncorrectable means a syndrome that is not 0 (43_decoder.md R156). -/
  uncorrectable_syn : o.status = .uncorrectable → o.syn ≠ 0
  /-- ROUT is at most PCD(255) = 9 (10_state.md R33). -/
  rout_le : o.rout.toNat ≤ 9
  /-- POUT[k] = 0 for k >= r (10_state.md R34). -/
  pout_above : ∀ k, o.rout.toNat ≤ k → o.pout.getLsbD k = false

/-- A sound state: consistent outputs, and a host that breaks no obligation in what it does next. -/
structure State.Sound (s : State) : Prop where
  outputs : s.out.Consistent
  host : ∀ e ∈ s.host, e.keepsObligation = true

/-! ### The spec's words (00_scope.md R10, R11) -/

/-- `min { r : p(r) }` is `r` (00_scope.md R11). -/
def LeastNat (p : Nat → Prop) (r : Nat) : Prop := p r ∧ ∀ q, q < r → ¬p q

/-- The bit string's element i; 0 beyond its end. -/
def bitAt (c : Bits) (i : Nat) : Bool := c.getD i false

/-- The string that the first `len` bits of a port carry (30_encoding.md R72). -/
def portBits {width : Nat} (v : BitVec width) (len : Nat) : Bits := (List.range len).map fun j => v.getLsbD j

/-- The vector port shows the bit string, 0 above it (20_memory.md R51, 10_state.md R31). -/
def Shows {width : Nat} (v : BitVec width) (b : Bits) : Prop := ∀ j, v.getLsbD j = bitAt b j

/-- The index is 2^k - 1 for a k < r (40_layout.md R102). -/
def atParity (r i : Nat) : Bool := (List.range r).any fun k => i + 1 == 2 ^ k

/-- The bits at the data slots, ascending: `[ c[i] : 0 <= i < |c|, not IsPar(r, i) ]` (43_decoder.md R150). -/
def dataSlots (c : Bits) (r : Nat) : Bits :=
  ((List.range c.length).filter fun i => !atParity r i).map fun i => bitAt c i

/-- The count of ones of `c` at the indices that `g` holds of is odd (41_placement_parity.md R125). -/
def oddOnes (c : Bits) (g : Nat → Bool) : Bool :=
  decide ((List.range c.length).countP (fun i => g i && bitAt c i) % 2 = 1)

/-- The index lies in an included block of p: blocks of p + 1 indices from p on, every other one included, the first one
included (41_placement_parity.md R122). -/
def inGroup (p i : Nat) : Bool := decide (p ≤ i ∧ ∃ q ≤ i, q % 2 = 0 ∧ p + q * (p + 1) ≤ i ∧ i < p + (q + 1) * (p + 1))

/-- `c` and `v` are the codeword and the parity vector of the message `b` with `r` parity bits (42_encoder.md R140): the
message stands in the data slots, each parity is that of its group's data bits, and stands at its position. -/
structure IsCodeword (b : Bits) (r : Nat) (c v : Bits) : Prop where
  length : c.length = b.length + r
  parity_length : v.length = r
  data : dataSlots c r = b
  parity : ∀ k, k < r → bitAt v k = oddOnes c fun i => inGroup (2 ^ k - 1) i && !atParity r i
  placed : ∀ k, k < r → bitAt c (2 ^ k - 1) = bitAt v k

/-- What steps 1 to 5 of the decoder find in a received codeword `c` (43_decoder.md R154): r, the data bits, the parity
expected of them, and the syndrome, whose bit k is the mismatch at position 2^k - 1. -/
structure IsSyndrome (c : Bits) (r : Nat) (d e : Bits) (y : Nat) : Prop where
  count : LeastNat (fun q => 2 ^ q ≥ c.length + 1) r
  data : d = dataSlots c r
  expected_length : e.length = r
  expected : ∀ k, k < r → bitAt e k = oddOnes c fun i => inGroup (2 ^ k - 1) i && !atParity r i
  mismatch : ∀ k, y.testBit k = (decide (k < r) && (bitAt c (2 ^ k - 1) ^^ bitAt e k))

/-- The control word matches that row of the opcode table: `(w and 0xFF0000FF) = op` (30_encoding.md R74, R75). -/
def Selects (w : Word) (op : Nat) : Prop := w &&& 0xFF0000FF#32 = BitVec.ofNat 32 op

/-- The length is one of the powers of two from 4 on (43_decoder.md R153). -/
def PowerOfTwoLength (n : Nat) : Prop := ∃ j, 2 ≤ j ∧ n = 2 ^ j

end Sys2Proof.Machine
end

