-- ==== Sys2Proof/Certificates/Slice0/Obligations.lean ====
section
/-!
DEFINITION. The statements for the provers. They are in the spec's words as Safety.lean gives them: least numbers, bits at
indices, counts of ones, list comprehensions. `s.withOut o` is the state `s` with the output registers `o` and nothing
else changed, so an equation `exec i s = .next (s.withOut o)` is the frame too.
-/

open Sys2Proof Sys2Proof.Machine

/-! ### Encoding (30_encoding.md) -/

/-- R22, R40, R74: the step of an undisturbed request is the decoded operation, on the state with that interaction taken
off the host's list. -/
def Obligations.RequestRunsDecodedOperation : Prop :=
  ∀ (s : State) (rest : List (HostEvent s.cfg.nMax)) (i : Instr),
    s.host = .request .undisturbed :: rest → decode s.ctrl = .ok i → step s = exec i (s.withHost rest)

/-- R75, R79: words written out bit by bit, RSV1 ARG LEN RSV0 OP, read as the operations they stand for. -/
def Obligations.WrittenOutWordsDecode : Prop :=
  decode 0b00000000_00000000_00001000_0000_0001#32 = .ok (.pcd 8) ∧
  decode 0b00000000_01010101_00001000_0000_0001#32 = .ok (.pcd 8) ∧
  decode 0b00000000_00000000_00001100_0000_0010#32 = .ok (.pcc 12) ∧
  decode 0b00000000_00000100_00000000_0000_0011#32 = .ok (.pos 4) ∧
  decode 0b00000000_00000100_00001000_0000_0100#32 = .ok (.plc 8 4) ∧
  decode 0b00000000_00000100_00001100_0000_0101#32 = .ok (.par 12 4) ∧
  decode 0b00000000_00000000_00001000_0000_0110#32 = .ok (.enc 8) ∧
  decode 0b00000000_00000000_00001011_0000_0111#32 = .ok (.syn 11) ∧
  decode 0b00000000_00000001_00001100_0000_1000#32 = .ok (.loc 12 1) ∧
  decode 0b00000000_00000000_00001011_0000_1001#32 = .ok (.dec 11) ∧
  decode 0b00000000_00000000_00000000_0000_1010#32 = .error .noSuchOp ∧
  decode 0b00000001_00000000_00001000_0000_0110#32 = .error .reservedNonzero

/-- R75, R79: decoding the word of a well-formed operation gives the operation back, for every operation and every
operand. -/
def Obligations.DecodeEncodeRoundTrip : Prop :=
  ∀ i : Instr, i.wellFormed = true → decode (encode i) = .ok i

/-- R75, row by row: a word that matches a row under 0xFF0000FF is that row's operation, with LEN of bits 15..8 and ARG of
bits 23..16 as unsigned integers, whatever stands in an ignored field. -/
def Obligations.TableRowsDecode : Prop :=
  ∀ w : Word,
    (Selects w 1 → decode w = .ok (.pcd (w.extractLsb' 8 8).toNat)) ∧
    (Selects w 2 → decode w = .ok (.pcc (w.extractLsb' 8 8).toNat)) ∧
    (Selects w 3 → decode w = .ok (.pos (w.extractLsb' 16 8).toNat)) ∧
    (Selects w 4 → decode w = .ok (.plc (w.extractLsb' 8 8).toNat (w.extractLsb' 16 8).toNat)) ∧
    (Selects w 5 → decode w = .ok (.par (w.extractLsb' 8 8).toNat (w.extractLsb' 16 8).toNat)) ∧
    (Selects w 6 → decode w = .ok (.enc (w.extractLsb' 8 8).toNat)) ∧
    (Selects w 7 → decode w = .ok (.syn (w.extractLsb' 8 8).toNat)) ∧
    (Selects w 8 → decode w = .ok (.loc (w.extractLsb' 8 8).toNat (w.extractLsb' 16 8).toNat)) ∧
    (Selects w 9 → decode w = .ok (.dec (w.extractLsb' 8 8).toNat))

/-- R203, R74: a request whose control word has OP 0 or OP from 10, or a reserved field that is not 0, gets the IllegalOp
response, whatever its operands and DIN; every other word is an operation. -/
def Obligations.IllegalWordsGetIllegalOp : Prop :=
  (∀ (s : State) (rest : List (HostEvent s.cfg.nMax)), s.host = .request .undisturbed :: rest →
    (s.ctrl.extractLsb' 0 4 = 0#4 ∨ 10#4 ≤ s.ctrl.extractLsb' 0 4 ∨ s.ctrl.extractLsb' 4 4 ≠ 0#4 ∨
      s.ctrl.extractLsb' 24 8 ≠ 0#8) →
    step s = .next ((s.withHost rest).withOut
      { rvalid := true, fault := .illegalOp, status := .none, cvalid := false, dlen := 0, dout := 0, cout := 0,
        rout := 0, pout := 0, syn := 0, idx := 0 })) ∧
  ∀ w : Word, (∃ i, decode w = .ok i) ↔ ∃ c, 1 ≤ c ∧ c ≤ 9 ∧ Selects w c

/-- R25, R72: bits of DIN at and above the operand's length, and all of DIN for PCD, PCC, POS and LOC, change no
response. -/
def Obligations.DinBeyondOperandIgnored : Prop :=
  ∀ (i : Instr) (s : State) (d : BitVec s.cfg.nMax),
    (∀ j, j < i.dinLength → d.getLsbD j = s.din.getLsbD j) →
    ∃ o, exec i s = .next (s.withOut o) ∧
      exec i (s.drivePorts s.ctrl d) = .next ((s.drivePorts s.ctrl d).withOut o)

/-! ### The operations -/

/-- R104, R100: PCD answers ROUT = the least r with 2^r >= m + r + 1, every other register unassigned, for every m. -/
def Obligations.PcdAnswersLeastCount : Prop :=
  (∀ w, Selects w 1 → decode w = .ok (.pcd (w.extractLsb' 8 8).toNat)) ∧
  ∀ (s : State) (m : Nat), ∃ r, LeastNat (fun q => 2 ^ q ≥ m + q + 1) r ∧
    exec (.pcd m) s = .next (s.withOut { Outputs.unassigned s.cfg.nMax with rout := BitVec.ofNat 8 r })

/-- R105, R101: PCC answers ROUT = the least r with 2^r >= n + 1, every other register unassigned, for every n. -/
def Obligations.PccAnswersLeastCount : Prop :=
  (∀ w, Selects w 2 → decode w = .ok (.pcc (w.extractLsb' 8 8).toNat)) ∧
  ∀ (s : State) (n : Nat), ∃ r, LeastNat (fun q => 2 ^ q ≥ n + 1) r ∧
    exec (.pcc n) s = .next (s.withOut { Outputs.unassigned s.cfg.nMax with rout := BitVec.ofNat 8 r })

/-- R106: POS answers the mask of the parity positions, its length and r; InvalidInput when r > R_MAX. -/
def Obligations.PosAnswersPositionMask : Prop :=
  (∀ w, Selects w 3 → decode w = .ok (.pos (w.extractLsb' 16 8).toNat)) ∧
  ∀ (s : State) (r : Nat),
    (r > rMax s.cfg.nMax →
      exec (.pos r) s = .next (s.withOut { Outputs.unassigned s.cfg.nMax with fault := .invalidInput })) ∧
    (r ≤ rMax s.cfg.nMax → ∃ d : BitVec s.cfg.nMax, (∀ j, d.getLsbD j = true ↔ ∃ k, k < r ∧ j = 2 ^ k - 1) ∧
      exec (.pos r) s = .next (s.withOut { Outputs.unassigned s.cfg.nMax with
        dout := d, dlen := BitVec.ofNat 8 (if r = 0 then 0 else 2 ^ (r - 1)), rout := BitVec.ofNat 8 r }))

/-- R126, R120: PLC answers the buffer of length m + r whose parity slots are 0 and whose data slots, in ascending order,
hold the message and then zeros; InvalidInput when r > R_MAX or m + r > N_MAX. -/
def Obligations.PlcAnswersPlacedBuffer : Prop :=
  (∀ w, Selects w 4 → decode w = .ok (.plc (w.extractLsb' 8 8).toNat (w.extractLsb' 16 8).toNat)) ∧
  ∀ (s : State) (m r : Nat),
    (r > rMax s.cfg.nMax ∨ m + r > s.cfg.nMax →
      exec (.plc m r) s = .next (s.withOut { Outputs.unassigned s.cfg.nMax with fault := .invalidInput })) ∧
    (r ≤ rMax s.cfg.nMax → m + r ≤ s.cfg.nMax → ∃ (c : Bits) (d : BitVec s.cfg.nMax),
      c.length = m + r ∧ (∀ k, k < r → bitAt c (2 ^ k - 1) = false) ∧
      (∃ z, dataSlots c r = portBits s.din m ++ List.replicate z false) ∧ Shows d c ∧
      exec (.plc m r) s = .next (s.withOut { Outputs.unassigned s.cfg.nMax with
        dout := d, dlen := BitVec.ofNat 8 (m + r), rout := BitVec.ofNat 8 r }))

/-- R127, R125: PAR answers, for each k < r, whether the count of ones in the coverage group of 2^k - 1 is odd, and 0 for
k >= r; InvalidInput when n > N_MAX or r > R_MAX. -/
def Obligations.ParAnswersGroupParities : Prop :=
  (∀ w, Selects w 5 → decode w = .ok (.par (w.extractLsb' 8 8).toNat (w.extractLsb' 16 8).toNat)) ∧
  ∀ (s : State) (n r : Nat),
    (n > s.cfg.nMax ∨ r > rMax s.cfg.nMax →
      exec (.par n r) s = .next (s.withOut { Outputs.unassigned s.cfg.nMax with fault := .invalidInput })) ∧
    (n ≤ s.cfg.nMax → r ≤ rMax s.cfg.nMax → ∃ p : Byte,
      (∀ k, p.getLsbD k = (decide (k < r) && oddOnes (portBits s.din n) (inGroup (2 ^ k - 1)))) ∧
      exec (.par n r) s = .next (s.withOut { Outputs.unassigned s.cfg.nMax with
        pout := p, rout := BitVec.ofNat 8 r }))

/-- R141, R140, R143: ENC answers the codeword of the message and its parity vector, with r the least count for m;
InvalidInput when m = 0 or m > M_MAX. -/
def Obligations.EncAnswersCodeword : Prop :=
  (∀ w, Selects w 6 → decode w = .ok (.enc (w.extractLsb' 8 8).toNat)) ∧
  ∀ (s : State) (m : Nat),
    (m = 0 ∨ m > mMax s.cfg.nMax →
      exec (.enc m) s = .next (s.withOut { Outputs.unassigned s.cfg.nMax with fault := .invalidInput })) ∧
    (1 ≤ m → m ≤ mMax s.cfg.nMax → ∃ (r : Nat) (c v : Bits) (d : BitVec s.cfg.nMax) (p : Byte),
      LeastNat (fun q => 2 ^ q ≥ m + q + 1) r ∧ IsCodeword (portBits s.din m) r c v ∧ Shows d c ∧ Shows p v ∧
      exec (.enc m) s = .next (s.withOut { Outputs.unassigned s.cfg.nMax with
        dout := d, dlen := BitVec.ofNat 8 (m + r), pout := p, rout := BitVec.ofNat 8 r }))

/-- R158, R154, R152, R153: SYN answers the data bits, the parity expected of them, r and the syndrome; InvalidInput for
n = 0, 1, 2 and n > N_MAX, LengthMismatch for the powers of two from 4 on. -/
def Obligations.SynAnswersSyndrome : Prop :=
  (∀ w, Selects w 7 → decode w = .ok (.syn (w.extractLsb' 8 8).toNat)) ∧
  ∀ (s : State) (n : Nat),
    (n ≤ 2 ∨ n > s.cfg.nMax →
      exec (.syn n) s = .next (s.withOut { Outputs.unassigned s.cfg.nMax with fault := .invalidInput })) ∧
    (n ≤ s.cfg.nMax → PowerOfTwoLength n →
      exec (.syn n) s = .next (s.withOut { Outputs.unassigned s.cfg.nMax with fault := .lengthMismatch })) ∧
    (3 ≤ n → n ≤ s.cfg.nMax → ¬PowerOfTwoLength n →
      ∃ (r : Nat) (d e : Bits) (y : Nat) (dv : BitVec s.cfg.nMax) (p : Byte),
        IsSyndrome (portBits s.din n) r d e y ∧ Shows dv d ∧ Shows p e ∧
        exec (.syn n) s = .next (s.withOut { Outputs.unassigned s.cfg.nMax with
          dout := dv, dlen := BitVec.ofNat 8 (n - r), pout := p, rout := BitVec.ofNat 8 r, syn := BitVec.ofNat 8 y }))

/-- R159, R156: LOC answers NoError for s = 0, Corrected with index s - 1 for 1 <= s <= n, Uncorrectable above;
InvalidInput when n = 0 or n > N_MAX. -/
def Obligations.LocAnswersLocation : Prop :=
  (∀ w, Selects w 8 → decode w = .ok (.loc (w.extractLsb' 8 8).toNat (w.extractLsb' 16 8).toNat)) ∧
  ∀ (s : State) (n y : Nat),
    (n = 0 ∨ n > s.cfg.nMax →
      exec (.loc n y) s = .next (s.withOut { Outputs.unassigned s.cfg.nMax with fault := .invalidInput })) ∧
    (1 ≤ n → n ≤ s.cfg.nMax →
      (y = 0 → exec (.loc n y) s = .next (s.withOut { Outputs.unassigned s.cfg.nMax with status := .noError })) ∧
      (1 ≤ y → y ≤ n → exec (.loc n y) s = .next (s.withOut { Outputs.unassigned s.cfg.nMax with
        status := .corrected, idx := BitVec.ofNat 8 (y - 1), syn := BitVec.ofNat 8 y })) ∧
      (n < y → exec (.loc n y) s = .next (s.withOut { Outputs.unassigned s.cfg.nMax with
        status := .uncorrectable, syn := BitVec.ofNat 8 y })))

/-- R160, R157, R152, R153: DEC answers by the syndrome y of the received codeword. 0: NoError and the data bits as
received. 1 to n: Corrected, with the bit at index y - 1 flipped, and the data bits of the flipped codeword. Above n:
Uncorrectable and the data bits as received. Faults as SYN. -/
def Obligations.DecAnswersDecodedMessage : Prop :=
  (∀ w, Selects w 9 → decode w = .ok (.dec (w.extractLsb' 8 8).toNat)) ∧
  ∀ (s : State) (n : Nat),
    (n ≤ 2 ∨ n > s.cfg.nMax →
      exec (.dec n) s = .next (s.withOut { Outputs.unassigned s.cfg.nMax with fault := .invalidInput })) ∧
    (n ≤ s.cfg.nMax → PowerOfTwoLength n →
      exec (.dec n) s = .next (s.withOut { Outputs.unassigned s.cfg.nMax with fault := .lengthMismatch })) ∧
    (3 ≤ n → n ≤ s.cfg.nMax → ¬PowerOfTwoLength n →
      ∃ (r : Nat) (d e : Bits) (y : Nat) (p : Byte),
        IsSyndrome (portBits s.din n) r d e y ∧ Shows p e ∧
        (y = 0 → ∃ dv : BitVec s.cfg.nMax, Shows dv d ∧
          exec (.dec n) s = .next (s.withOut { Outputs.unassigned s.cfg.nMax with
            status := .noError, dout := dv, dlen := BitVec.ofNat 8 (n - r), pout := p, rout := BitVec.ofNat 8 r })) ∧
        (1 ≤ y → y ≤ n → ∃ (c2 : Bits) (dv cv : BitVec s.cfg.nMax), c2.length = n ∧
          (∀ j, j < n → bitAt c2 j = if j = y - 1 then !s.din.getLsbD j else s.din.getLsbD j) ∧
          Shows dv (dataSlots c2 r) ∧ Shows cv c2 ∧
          exec (.dec n) s = .next (s.withOut { Outputs.unassigned s.cfg.nMax with
            status := .corrected, cvalid := true, dout := dv, dlen := BitVec.ofNat 8 (n - r), cout := cv, pout := p,
            rout := BitVec.ofNat 8 r, syn := BitVec.ofNat 8 y, idx := BitVec.ofNat 8 (y - 1) })) ∧
        (n < y → ∃ dv : BitVec s.cfg.nMax, Shows dv d ∧
          exec (.dec n) s = .next (s.withOut { Outputs.unassigned s.cfg.nMax with
            status := .uncorrectable, dout := dv, dlen := BitVec.ofNat 8 (n - r), pout := p, rout := BitVec.ofNat 8 r,
            syn := BitVec.ofNat 8 y })))

/-- R40, R13, R205: the frame. An operation answers with a response that leaves CTRL, DIN, the build and what the host
does next as they were, and that has, without fault, only the registers its rule assigns; with a fault, none. -/
def Obligations.OperationsAssignOnlyTheirRegisters : Prop :=
  ∀ (i : Instr) (s : State), ∃ o, exec i s = .next (s.withOut o) ∧ o.rvalid = true ∧
    (o.fault ≠ .ok → o = { Outputs.unassigned s.cfg.nMax with fault := o.fault }) ∧
    (o.fault = .ok →
      match i with
      | .pcd _ => o = { Outputs.unassigned s.cfg.nMax with rout := o.rout }
      | .pcc _ => o = { Outputs.unassigned s.cfg.nMax with rout := o.rout }
      | .pos _ => o = { Outputs.unassigned s.cfg.nMax with dout := o.dout, dlen := o.dlen, rout := o.rout }
      | .plc _ _ => o = { Outputs.unassigned s.cfg.nMax with dout := o.dout, dlen := o.dlen, rout := o.rout }
      | .par _ _ => o = { Outputs.unassigned s.cfg.nMax with pout := o.pout, rout := o.rout }
      | .enc _ => o = { Outputs.unassigned s.cfg.nMax with
          dout := o.dout, dlen := o.dlen, pout := o.pout, rout := o.rout }
      | .syn _ => o = { Outputs.unassigned s.cfg.nMax with
          dout := o.dout, dlen := o.dlen, pout := o.pout, rout := o.rout, syn := o.syn }
      | .loc _ _ => o = { Outputs.unassigned s.cfg.nMax with status := o.status, idx := o.idx, syn := o.syn }
      | .dec _ => o = { Outputs.unassigned s.cfg.nMax with
          status := o.status, cvalid := o.cvalid, dlen := o.dlen, dout := o.dout, cout := o.cout, rout := o.rout,
          pout := o.pout, syn := o.syn, idx := o.idx })

/-- R11, R26: no result overflows its register: each integer register that an operation's rule assigns holds exactly the
number the rule gives; SYN after SYN and DEC is the syndrome of the received word. -/
def Obligations.ResultsFitTheirRegisters : Prop :=
  ∀ (i : Instr) (s : State), i.wellFormed = true → ∃ o, exec i s = .next (s.withOut o) ∧ (o.fault = .ok →
    match i with
    | .pcd m => LeastNat (fun q => 2 ^ q ≥ m + q + 1) o.rout.toNat
    | .pcc n => LeastNat (fun q => 2 ^ q ≥ n + 1) o.rout.toNat
    | .pos r => o.rout.toNat = r ∧ o.dlen.toNat = if r = 0 then 0 else 2 ^ (r - 1)
    | .plc m r => o.dlen.toNat = m + r ∧ o.rout.toNat = r
    | .par _ r => o.rout.toNat = r
    | .enc m => LeastNat (fun q => 2 ^ q ≥ m + q + 1) o.rout.toNat ∧ o.dlen.toNat = m + o.rout.toNat
    | .syn n => LeastNat (fun q => 2 ^ q ≥ n + 1) o.rout.toNat ∧ o.dlen.toNat + o.rout.toNat = n ∧
        o.syn.toNat < 2 ^ o.rout.toNat ∧
        ∃ d e : Bits, IsSyndrome (portBits s.din n) o.rout.toNat d e o.syn.toNat
    | .loc n y => o.syn.toNat = y ∧ o.idx.toNat = if 1 ≤ y ∧ y ≤ n then y - 1 else 0
    | .dec n => LeastNat (fun q => 2 ^ q ≥ n + 1) o.rout.toNat ∧ o.dlen.toNat + o.rout.toNat = n ∧
        o.syn.toNat < 2 ^ o.rout.toNat ∧
        (∃ d e : Bits, IsSyndrome (portBits s.din n) o.rout.toNat d e o.syn.toNat) ∧
        o.idx.toNat = if 1 ≤ o.syn.toNat ∧ o.syn.toNat ≤ n then o.syn.toNat - 1 else 0)

/-! ### Faults (60_exceptions.md) -/

/-- R205: a request that faults leaves the fault response, its kind's code in FAULT and nothing of the operation. -/
def Obligations.FaultLeavesOnlyItsCode : Prop :=
  ∀ (s : State) (rest : List (HostEvent s.cfg.nMax)), s.host = .request .undisturbed :: rest →
    ∃ o, step s = .next ((s.withHost rest).withOut o) ∧
      (o.fault.code ≠ 0#2 → o =
        { rvalid := true, fault := o.fault, status := .none, cvalid := false, dlen := 0, dout := 0, cout := 0,
          rout := 0, pout := 0, syn := 0, idx := 0 }) ∧
      FaultCode.code .invalidInput = 1#2 ∧ FaultCode.code .lengthMismatch = 2#2 ∧ FaultCode.code .illegalOp = 3#2

/-- R201: each operation raises InvalidInput exactly under the conditions of its row. -/
def Obligations.InvalidInputExactlyWhen : Prop :=
  ∀ (i : Instr) (s : State), ∃ o, exec i s = .next (s.withOut o) ∧ (o.fault = .invalidInput ↔
    match i with
    | .pcd _ => False
    | .pcc _ => False
    | .pos r => r > rMax s.cfg.nMax
    | .plc m r => r > rMax s.cfg.nMax ∨ m + r > s.cfg.nMax
    | .par n r => n > s.cfg.nMax ∨ r > rMax s.cfg.nMax
    | .enc m => m = 0 ∨ m > mMax s.cfg.nMax
    | .syn n => n = 0 ∨ n > s.cfg.nMax ∨ n = 1 ∨ n = 2
    | .loc n _ => n = 0 ∨ n > s.cfg.nMax
    | .dec n => n = 0 ∨ n > s.cfg.nMax ∨ n = 1 ∨ n = 2)

/-- R202: only SYN and DEC raise LengthMismatch, exactly when n is a power of two from 4 on that N_MAX admits, and that is
when the count the decoder derives from n is not the count the encoder would use for n - r data bits. -/
def Obligations.LengthMismatchExactlyWhen : Prop :=
  (∀ (i : Instr) (s : State), ∃ o, exec i s = .next (s.withOut o) ∧ (o.fault = .lengthMismatch ↔
    ∃ n, (i = .syn n ∨ i = .dec n) ∧ n ≤ s.cfg.nMax ∧ PowerOfTwoLength n)) ∧
  ∀ n, 3 ≤ n → (pcd (n - pcc n) ≠ pcc n ↔ PowerOfTwoLength n)

/-! ### Flags and packed words (10_state.md) -/

/-- R27: the codes of STATUS, and which responses write one of the three decode statuses. -/
def Obligations.StatusOnlyFromLocAndDec : Prop :=
  Status.code .noError = 0#2 ∧ Status.code .corrected = 1#2 ∧ Status.code .uncorrectable = 2#2 ∧
  Status.code .none = 3#2 ∧
  (∀ (i : Instr) (s : State), ∃ o, exec i s = .next (s.withOut o) ∧
    (o.status ≠ .none ↔ ((∃ n y, i = .loc n y) ∨ ∃ n, i = .dec n) ∧ o.fault = .ok)) ∧
  ∀ (s : State) (e : DecodeReject), decode s.ctrl = .error e →
    ∃ o, runRequest s = .next (s.withOut o) ∧ o.status = .none

/-- R29: CVALID is 1 exactly after a DEC without fault whose status is Corrected, and COUT is then the received codeword
with the bit at IDX flipped. -/
def Obligations.CvalidExactlyAfterCorrection : Prop :=
  (∀ (i : Instr) (s : State), ∃ o, exec i s = .next (s.withOut o) ∧
    (o.cvalid = true ↔ (∃ n, i = .dec n) ∧ o.fault = .ok ∧ o.status = .corrected) ∧
    ∀ n, i = .dec n → o.cvalid = true →
      ∀ j, o.cout.getLsbD j = (decide (j < n) && (s.din.getLsbD j ^^ decide (j = o.idx.toNat)))) ∧
  ∀ (s : State) (e : DecodeReject), decode s.ctrl = .error e →
    ∃ o, runRequest s = .next (s.withOut o) ∧ o.cvalid = false

/-- R30: a response sets RVALID, reset clears it, and nothing else the host does (with R234 kept) changes it. -/
def Obligations.RvalidSetByResponsesClearedByReset : Prop :=
  State.reset.out.rvalid = false ∧
  ∀ s : State, (∀ e rest, s.host = e :: rest → e.keepsObligation = true) → ∃ t, step s = .next t ∧
    ((∃ rest, s.host = .request .undisturbed :: rest) → t.out.rvalid = true) ∧
    ((∃ rest, s.host = .reset :: rest ∨ s.host = .request .resetArrives :: rest) → t.out.rvalid = false) ∧
    ((∀ e rest, s.host = e :: rest → e ≠ .reset ∧ ∀ f, e ≠ .request f) → t.out.rvalid = s.out.rvalid)

/-- R37, R38: the fields of RESP0 and RESP1 are the registers, and the bits not listed read 0. R26: a host that reads an
output gets that register (a named code as its number), and RESP0 and RESP1 as these two words. -/
def Obligations.PackedWordsShowRegisters : Prop :=
  ∀ (n : Nat) (o : Outputs n),
    o.resp0.extractLsb' 0 2 = o.status.code ∧ o.resp0.extractLsb' 2 2 = o.fault.code ∧
    o.resp0.getLsbD 4 = o.cvalid ∧ o.resp0.getLsbD 5 = o.rvalid ∧ o.resp0.extractLsb' 6 2 = 0#2 ∧
    o.resp0.extractLsb' 8 8 = o.dlen ∧ o.resp0.extractLsb' 16 8 = o.rout ∧ o.resp0.extractLsb' 24 8 = o.syn ∧
    o.resp1.extractLsb' 0 8 = o.idx ∧ o.resp1.extractLsb' 8 8 = o.pout ∧ o.resp1.extractLsb' 16 16 = 0#16 ∧
    o.read .resp0 = o.resp0 ∧ o.read .resp1 = o.resp1 ∧
    (o.read .rvalid = 1#1 ↔ o.rvalid = true) ∧ o.read .fault = o.fault.code ∧ o.read .status = o.status.code ∧
    (o.read .cvalid = 1#1 ↔ o.cvalid = true) ∧ o.read .dlen = o.dlen ∧ o.read .dout = o.dout ∧
    o.read .cout = o.cout ∧ o.read .rout = o.rout ∧ o.read .pout = o.pout ∧ o.read .syn = o.syn ∧ o.read .idx = o.idx

/-! ### Reset and the host (70_reset_and_hazards.md, 10_state.md) -/

/-- R230, R45: the reset event gives every output register its reset value and has no other effect; the machine starts
there, RESP0 reading 3 and RESP1 reading 0. -/
def Obligations.ResetGivesResetValues : Prop :=
  (∀ (s : State) (rest : List (HostEvent s.cfg.nMax)), s.host = .reset :: rest →
    step s = .next ((s.withHost rest).withOut
      { rvalid := false, fault := .ok, status := .none, cvalid := false, dlen := 0, dout := 0, cout := 0, rout := 0,
        pout := 0, syn := 0, idx := 0 })) ∧
  State.reset.out =
    { rvalid := false, fault := .ok, status := .none, cvalid := false, dlen := 0, dout := 0, cout := 0, rout := 0,
      pout := 0, syn := 0, idx := 0 } ∧
  State.reset.out.resp0 = 0x00000003#32 ∧ State.reset.out.resp1 = 0x00000000#32

/-- R231: a request in flight when reset arrives produces no response, and the outputs take the reset values. -/
def Obligations.ResetAbandonsRequestInFlight : Prop :=
  ∀ (s : State) (rest : List (HostEvent s.cfg.nMax)), s.host = .request .resetArrives :: rest →
    step s = .next ((s.withHost rest).withOut (Outputs.reset s.cfg.nMax))

/-- R39: a host write to an output is ignored and changes nothing; reading one has no side effect. -/
def Obligations.HostReadsAndWritesChangeNothing : Prop :=
  ∀ (s : State) (rest : List (HostEvent s.cfg.nMax)) (reg : OutReg) (v : Nat),
    (s.host = .write reg v :: rest → step s = .next (s.withHost rest)) ∧
    (s.host = .read reg :: rest → step s = .next (s.withHost rest))

/-- R232: a step that is neither a request nor reset leaves the output registers as they were. -/
def Obligations.OnlyResponsesAndResetChangeOutputs : Prop :=
  ∀ s : State, (∀ e rest, s.host = e :: rest → e ≠ .reset ∧ ∀ f, e ≠ .request f) →
    ∃ (h : List (HostEvent s.cfg.nMax)) (c : Word) (d : BitVec s.cfg.nMax),
      step s = .next ((s.withHost h).drivePorts c d)

/-- R235: after a request in whose flight the host broke R234, a request that keeps it gets its exact response, the one it
gets from the reset outputs. The values the broken request left are the free values of log entry 5: any outputs, for
whatever counter of draws. -/
def Obligations.ExactResponseAfterBrokenObligation : Prop :=
  ∀ (s : State) (rest : List (HostEvent s.cfg.nMax)) (f : Flight s.cfg.nMax), f.keepsObligation = false →
    s.host = .request f :: .request .undisturbed :: rest →
    ∃ (c : Word) (d : BitVec s.cfg.nMax) (free o : Outputs s.cfg.nMax) (k : Nat),
      step s = .next ⟨s.cfg, c, d, free, .request .undisturbed :: rest, k⟩ ∧
      (∀ c' d', f = .portsChanged c' d' → c = c' ∧ d = d') ∧ (f = .overlapped → c = s.ctrl ∧ d = s.din) ∧
      step ⟨s.cfg, c, d, free, .request .undisturbed :: rest, k⟩ = .next ⟨s.cfg, c, d, o, rest, k⟩ ∧
      runRequest ⟨s.cfg, c, d, Outputs.reset s.cfg.nMax, [], 0⟩ =
        .next ⟨s.cfg, c, d, o, [], 0⟩

/-- R20: a response is a function of the request (the operation, or CTRL, and DIN) and of N_MAX alone: two states of one
build with the same request get the same response, whatever their outputs, their host, and their draws. -/
def Obligations.ResponseDependsOnRequestAlone : Prop :=
  ∀ (s : State) (o' : Outputs s.cfg.nMax) (h' : List (HostEvent s.cfg.nMax)) (k' : Nat),
    (∀ (i : Instr) (c : Word), ∃ o, exec i s = .next (s.withOut o) ∧
      exec i ⟨s.cfg, c, s.din, o', h', k'⟩ = .next ⟨s.cfg, c, s.din, o, h', k'⟩) ∧
    ∃ o, runRequest s = .next (s.withOut o) ∧
      runRequest ⟨s.cfg, s.ctrl, s.din, o', h', k'⟩ = .next ⟨s.cfg, s.ctrl, s.din, o, h', k'⟩

/-- R40, R22: the block never stops: every step answers a next state. -/
def Obligations.BlockNeverStops : Prop :=
  ∀ s : State, ∃ t, step s = .next t

/-- R26 to R36: what the output registers say together is kept by every step of a host that keeps R234. -/
def Obligations.StepKeepsSoundState : Prop :=
  ∀ s t : State, s.Sound → step s = .next t → t.Sound

/-- R45: the state after reset is sound. -/
def Obligations.ResetStateIsSound : Prop := State.reset.Sound

/-! ### The layout's laws (40_layout.md, 00_scope.md) -/

/-- R103 items 1 to 4: PCD is non-decreasing and at least 2 from m = 1 on; the two counts agree for every length the
encoder produces; the parity positions of a length are exactly the numbers 2^k - 1 below it. -/
def Obligations.ParityCountsAgree : Prop :=
  (∀ m, pcd m ≤ pcd (m + 1)) ∧ (∀ m, 1 ≤ m → 2 ≤ pcd m) ∧ (∀ m, 1 ≤ m → pcc (m + pcd m) = pcd m) ∧
  ∀ n i, 1 ≤ n → (i ∈ pos (pcc n) ↔ i < n ∧ ∃ k, i + 1 = 2 ^ k)

/-- R103 item 5: the values of PCD and PCC over the whole range of LEN. -/
def Obligations.ParityCountValues : Prop :=
  ∀ m, m ≤ 255 →
    (pcd m = if m = 0 then 0 else if m = 1 then 2 else if m ≤ 4 then 3 else if m ≤ 11 then 4 else if m ≤ 26 then 5
      else if m ≤ 57 then 6 else if m ≤ 120 then 7 else if m ≤ 247 then 8 else 9) ∧
    (pcc m = if m = 0 then 0 else if m = 1 then 1 else if m ≤ 3 then 2 else if m ≤ 7 then 3 else if m ≤ 15 then 4
      else if m ≤ 31 then 5 else if m ≤ 63 then 6 else if m ≤ 127 then 7 else 8)

/-- R8: R_MAX is at most 8, M_MAX is the longest message whose codeword fits, in every legal build; and the table. -/
def Obligations.CapacityOfEveryBuild : Prop :=
  (∀ cfg : Config, rMax cfg.nMax ≤ 8 ∧ mMax cfg.nMax + pcd (mMax cfg.nMax) ≤ cfg.nMax ∧
    ∀ m, m + pcd m ≤ cfg.nMax → m ≤ mMax cfg.nMax) ∧
  [3, 7, 12, 15, 31, 63, 127, 255].map (fun n => (rMax n, mMax n)) =
    [(2, 1), (3, 4), (4, 8), (4, 11), (5, 26), (6, 57), (7, 120), (8, 247)]

/-! ### The code's laws (41_placement_parity.md, 42_encoder.md, 43_decoder.md) -/

/-- R123, R124: index i is in the group of 2^k - 1 exactly when bit k of i + 1 is 1, so each group holds one parity
position, its own. -/
def Obligations.CoverageIsBitOfOneBasedPosition : Prop :=
  (∀ k i, covers (2 ^ k - 1) i = (i + 1).testBit k) ∧
  ∀ k j, covers (2 ^ k - 1) (2 ^ j - 1) = true ↔ j = k

/-- R142, R128: what an encoder result satisfies, for every message that is not empty. -/
def Obligations.EncoderResultProperties : Prop :=
  ∀ b : Bits, 1 ≤ b.length → ∃ c v : Bits, encodeMessage b = .ok { codeword := c, parity := v } ∧
    c.length = b.length + pcd b.length ∧ pcc c.length = pcd b.length ∧
    (∀ k, k < pcd b.length → bitAt c (2 ^ k - 1) = bitAt v k) ∧
    extract c (pcd b.length) = b ∧
    parities c (pcd b.length) = List.replicate (pcd b.length) false ∧
    parities (place (extract c (pcd b.length)) (pcd b.length)) (pcd b.length) = v ∧
    ∀ nMax, c.length ≤ nMax → decodeCodeword nMax c = .ok { status := .noError, message := b, corrected := none }

/-- R155: on a length that passes the check, the syndrome is the bitwise XOR of the one-based positions of the ones. -/
def Obligations.SyndromeIsXorOfOnePositions : Prop :=
  ∀ (s : State) (n : Nat), 3 ≤ n → n ≤ s.cfg.nMax → ¬PowerOfTwoLength n →
    ∃ o, exec (.syn n) s = .next (s.withOut o) ∧
      o.syn.toNat = (((List.range n).filter fun i => s.din.getLsbD i).map fun i => i + 1).foldl (· ^^^ ·) 0

/-- R161 item 1: a message encoded, its codeword driven back on DIN and decoded gives NoError and the message. -/
def Obligations.EncodeThenDecodeReturnsMessage : Prop :=
  ∀ (s : State) (m : Nat), 1 ≤ m → m ≤ mMax s.cfg.nMax → ∃ o o' : Outputs s.cfg.nMax,
    exec (.enc m) s = .next (s.withOut o) ∧
    exec (.dec o.dlen.toNat) ((s.withOut o).drivePorts s.ctrl o.dout) =
      .next (((s.withOut o).drivePorts s.ctrl o.dout).withOut o') ∧
    o'.fault = .ok ∧ o'.status = .noError ∧ o'.cvalid = false ∧ o'.syn = 0 ∧ o'.dlen.toNat = m ∧
    ∀ j, o'.dout.getLsbD j = (decide (j < m) && s.din.getLsbD j)

/-- R161 item 2: with any one bit of the codeword flipped by the host before it decodes, the block answers Corrected,
names the flipped index, and gives back the codeword and the message. -/
def Obligations.SingleFlipIsCorrected : Prop :=
  ∀ (s : State) (m : Nat), 1 ≤ m → m ≤ mMax s.cfg.nMax → ∃ o : Outputs s.cfg.nMax,
    exec (.enc m) s = .next (s.withOut o) ∧
    ∀ i, i < o.dlen.toNat → ∃ o' : Outputs s.cfg.nMax,
      exec (.dec o.dlen.toNat) ((s.withOut o).drivePorts s.ctrl (o.dout ^^^ BitVec.twoPow s.cfg.nMax i)) =
        .next (((s.withOut o).drivePorts s.ctrl (o.dout ^^^ BitVec.twoPow s.cfg.nMax i)).withOut o') ∧
      o'.fault = .ok ∧ o'.status = .corrected ∧ o'.syn.toNat = i + 1 ∧ o'.idx.toNat = i ∧ o'.cvalid = true ∧
      o'.cout = o.dout ∧ o'.dlen.toNat = m ∧ ∀ j, o'.dout.getLsbD j = (decide (j < m) && s.din.getLsbD j)

/-- R161 item 3: with two bits flipped the syndrome is the XOR of the two one-based positions, not 0, and the answer is
Uncorrectable when it exceeds the length; otherwise it is Corrected and the message is wrong. -/
def Obligations.TwoFlipsAreNeverNoError : Prop :=
  ∀ (s : State) (m : Nat), 1 ≤ m → m ≤ mMax s.cfg.nMax → ∃ o : Outputs s.cfg.nMax,
    exec (.enc m) s = .next (s.withOut o) ∧
    ∀ i j, i < o.dlen.toNat → j < o.dlen.toNat → i ≠ j → ∃ o' : Outputs s.cfg.nMax,
      exec (.dec o.dlen.toNat) ((s.withOut o).drivePorts s.ctrl
          (o.dout ^^^ BitVec.twoPow s.cfg.nMax i ^^^ BitVec.twoPow s.cfg.nMax j)) =
        .next (((s.withOut o).drivePorts s.ctrl
          (o.dout ^^^ BitVec.twoPow s.cfg.nMax i ^^^ BitVec.twoPow s.cfg.nMax j)).withOut o') ∧
      o'.syn.toNat = (i + 1) ^^^ (j + 1) ∧ o'.syn ≠ 0 ∧
      (o.dlen.toNat < o'.syn.toNat → o'.status = .uncorrectable) ∧
      (o'.syn.toNat ≤ o.dlen.toNat → o'.status = .corrected ∧
        ∃ k, k < m ∧ o'.dout.getLsbD k ≠ s.din.getLsbD k)

/-- R162: DEC is SYN, then LOC with SYN's syndrome, then the flip: DLEN, POUT, ROUT and SYN are SYN's, STATUS and IDX are
LOC's, and DOUT differs from SYN's in the one corrected data bit, if a data bit was corrected. -/
def Obligations.DecIsSynThenLocThenFlip : Prop :=
  ∀ (s : State) (n : Nat), 3 ≤ n → n ≤ s.cfg.nMax → ¬PowerOfTwoLength n →
    ∃ y l d : Outputs s.cfg.nMax, exec (.syn n) s = .next (s.withOut y) ∧
      exec (.loc n y.syn.toNat) s = .next (s.withOut l) ∧ exec (.dec n) s = .next (s.withOut d) ∧
      d.dlen = y.dlen ∧ d.pout = y.pout ∧ d.rout = y.rout ∧ d.syn = y.syn ∧ d.status = l.status ∧ d.idx = l.idx ∧
      d.dout = y.dout ^^^ (if d.status = .corrected ∧ atParity y.rout.toNat d.idx.toNat = false then
        BitVec.twoPow s.cfg.nMax ((List.range d.idx.toNat).countP fun i => !atParity y.rout.toNat i) else 0)

/-! ### Assembly (30_encoding.md R78, R79) -/

/-- R79: the spec's examples of assembled lines. -/
def Obligations.AssembledExamples : Prop :=
  assemble 255 (.enc [false, true, false, false, false, false, false, true]) = (0x00000806#32, 0x82#255) ∧
  (assemble 255 (.dec [true, false, true, true, false, false, true, false, false, false, false])).1 = 0x00000B09#32 ∧
  (assemble 255 (.loc 12 1)).1 = 0x00010C08#32

/-- R79: disassembling an assembled line gives the line back; assembling a disassembled request gives a word that
selects the same operation with the same operands; where LEN > N_MAX the disassembled line is the model's choice of log
entry 17, and that a `.word` line can be assembled is that of log entry 18. -/
def Obligations.AssembleDisassembleRoundTrip : Prop :=
  (∀ (nMax : Nat) (l : AsmLine), l.fits nMax = true →
    disassemble (assemble nMax l).1 (assemble nMax l).2 = l) ∧
  ∀ (nMax : Nat) (w : Word) (d : BitVec nMax), decode (assemble nMax (disassemble w d)).1 = decode w

/-- R78: the text of a line reads back as the line. The text's blanks are log entry 12's. -/
def Obligations.LineTextReadsBack : Prop :=
  ∀ (nMax : Nat) (l : AsmLine), l.fits nMax = true → parseLine nMax l.text = some l

/-! ### The host's drive, and the idle block (10_state.md, 60_exceptions.md) -/

/-- R23, R238: the host's drive puts its values on CTRL and DIN and changes nothing else. R215: with no interaction left
(log entry 3's list is empty) the block holds its outputs, and the model the whole state. -/
def Obligations.DriveSetsPortsAndIdleBlockHolds : Prop :=
  ∀ s : State,
    (∀ (rest : List (HostEvent s.cfg.nMax)) (c : Word) (d : BitVec s.cfg.nMax), s.host = .drive c d :: rest →
      step s = .next ⟨s.cfg, c, d, s.out, rest, s.draws⟩) ∧
    (s.host = [] → step s = .next s)
end

