-- ==== Sys2Proof/Laws/Codec.lean ====
section
/-!
SUPPORT. What each pure function of the codec does, once (Machine/Codec.lean), for proofs to cite instead of unfolding it.
-/

namespace Sys2Proof.Machine

/-! ### The parity counts (40_layout.md R100, R101) -/

theorem searchUp_ge (p : Nat → Bool) (fuel r : Nat) : r ≤ searchUp p fuel r := by
  induction fuel generalizing r with
  | zero => simp [searchUp]
  | succ f ih => simp only [searchUp]; split <;> [exact le_rfl; exact (Nat.le_succ r).trans (ih _)]

/-- The search passes only over numbers that `p` fails on. -/
theorem searchUp_min (p : Nat → Bool) (fuel r q : Nat) (hr : r ≤ q) (hq : q < searchUp p fuel r) : p q = false := by
  induction fuel generalizing r with
  | zero => simp only [searchUp] at hq; omega
  | succ f ih =>
    simp only [searchUp] at hq
    split at hq
    · omega
    · rcases Nat.eq_or_lt_of_le hr with rfl | h
      · simpa using ‹¬p r = true›
      · exact ih (r + 1) h hq

/-- The search finds a number that `p` holds of when there is one within its fuel. -/
theorem searchUp_holds (p : Nat → Bool) (fuel r q : Nat) (hr : r ≤ q) (hq : q ≤ r + fuel) (hp : p q = true) :
    p (searchUp p fuel r) = true := by
  induction fuel generalizing r with
  | zero => obtain rfl : q = r := by omega
            simpa [searchUp] using hp
  | succ f ih =>
    simp only [searchUp]
    split
    · assumption
    · rcases Nat.eq_or_lt_of_le hr with rfl | h
      · contradiction
      · exact ih (r + 1) h (by omega)

theorem pcd_holds (m : Nat) : 2 ^ pcd m ≥ m + pcd m + 1 := by
  have h := searchUp_holds (fun r => decide (2 ^ r ≥ m + r + 1)) (m + 1) 0 (m + 1) (by omega) (by omega)
    (by simp only [decide_eq_true_eq]; have := Nat.lt_two_pow_self (n := m); rw [pow_succ]; omega)
  simpa [pcd] using h

theorem pcd_min (m q : Nat) (hq : q < pcd m) : 2 ^ q < m + q + 1 := by
  have h := searchUp_min _ _ _ q (Nat.zero_le q) hq
  simpa using h

theorem pcc_holds (n : Nat) : 2 ^ pcc n ≥ n + 1 := by
  have h := searchUp_holds (fun r => decide (2 ^ r ≥ n + 1)) n 0 n (by omega) (by omega)
    (by simp only [decide_eq_true_eq]; exact Nat.lt_two_pow_self)
  simpa [pcc] using h

theorem pcc_min (n q : Nat) (hq : q < pcc n) : 2 ^ q < n + 1 := by
  have h := searchUp_min _ _ _ q (Nat.zero_le q) hq
  simpa using h

/-- `PCD(m)` is the least r of 40_layout.md R100. -/
theorem pcd_spec (m : Nat) : LeastNat (fun r => 2 ^ r ≥ m + r + 1) (pcd m) :=
  ⟨pcd_holds m, fun q hq => not_le.2 (pcd_min m q hq)⟩

/-- `PCC(n)` is the least r of 40_layout.md R101. -/
theorem pcc_spec (n : Nat) : LeastNat (fun r => 2 ^ r ≥ n + 1) (pcc n) :=
  ⟨pcc_holds n, fun q hq => not_le.2 (pcc_min n q hq)⟩

theorem LeastNat.unique {p : Nat → Prop} {a b : Nat} (ha : LeastNat p a) (hb : LeastNat p b) : a = b := by
  rcases Nat.lt_trichotomy a b with h | h | h
  · exact absurd ha.1 (hb.2 a h)
  · exact h
  · exact absurd hb.1 (ha.2 b h)

theorem pcd_eq_of {m r : Nat} (h : 2 ^ r ≥ m + r + 1) (hm : ∀ q, q < r → 2 ^ q < m + q + 1) : pcd m = r :=
  (pcd_spec m).unique ⟨h, fun q hq => not_le.2 (hm q hq)⟩

theorem pcc_eq_of {n r : Nat} (h : 2 ^ r ≥ n + 1) (hm : ∀ q, q < r → 2 ^ q < n + 1) : pcc n = r :=
  (pcc_spec n).unique ⟨h, fun q hq => not_le.2 (hm q hq)⟩

/-- A smaller count does for a smaller length. -/
theorem pcc_le_of {n r : Nat} (h : 2 ^ r ≥ n + 1) : pcc n ≤ r := by
  by_contra hlt
  have := pcc_min n r (by omega)
  omega

theorem pcd_le_of {m r : Nat} (h : 2 ^ r ≥ m + r + 1) : pcd m ≤ r := by
  by_contra hlt
  have := pcd_min m r (by omega)
  omega

theorem pcc_mono {a b : Nat} (h : a ≤ b) : pcc a ≤ pcc b := pcc_le_of (by have := pcc_holds b; omega)

theorem pcd_mono {a b : Nat} (h : a ≤ b) : pcd a ≤ pcd b := pcd_le_of (by have := pcd_holds b; omega)

theorem pcc_le_self (n : Nat) : pcc n ≤ n := pcc_le_of (by have := Nat.lt_two_pow_self (n := n); omega)

/-- No count is over 8 in a legal build (00_scope.md R8). -/
theorem rMax_le_eight (cfg : Config) : rMax cfg.nMax ≤ 8 := pcc_le_of (by have := cfg.le_255; omega)

/-! ### The largest length (00_scope.md R8) -/

theorem largestUpTo_le (p : Nat → Bool) (b : Nat) : largestUpTo p b ≤ b := by
  induction b with
  | zero => simp [largestUpTo]
  | succ b ih => simp only [largestUpTo]; split <;> omega

theorem le_largestUpTo (p : Nat → Bool) (b q : Nat) (hq : q ≤ b) (hp : p q = true) : q ≤ largestUpTo p b := by
  induction b with
  | zero => omega
  | succ b ih =>
    simp only [largestUpTo]
    split
    · omega
    · rcases Nat.eq_or_lt_of_le hq with rfl | h
      · contradiction
      · exact ih (by omega)

theorem largestUpTo_holds (p : Nat → Bool) (b : Nat) (h : 0 < largestUpTo p b) : p (largestUpTo p b) = true := by
  induction b with
  | zero => simp [largestUpTo] at h
  | succ b ih =>
    simp only [largestUpTo] at h ⊢
    split
    · assumption
    · rename_i hn
      rw [if_neg hn] at h
      exact ih h

/-- A message is short enough exactly when its codeword fits (00_scope.md R8). -/
theorem le_mMax_iff {nMax m : Nat} (hm : 1 ≤ m) : m ≤ mMax nMax ↔ m + pcd m ≤ nMax := by
  constructor
  · intro h
    have hp : mMax nMax + pcd (mMax nMax) ≤ nMax := by
      have := largestUpTo_holds (fun m => decide (m + pcd m ≤ nMax)) nMax (by unfold mMax at h; omega)
      simpa [mMax] using this
    have := pcd_mono h
    omega
  · intro h
    exact le_largestUpTo _ _ _ (by omega) (by simpa using h)

/-! ### Parity positions (40_layout.md R102) -/

@[simp] theorem pos_length (r : Nat) : (pos r).length = r := by simp [pos]

theorem mem_pos {r i : Nat} : i ∈ pos r ↔ ∃ k < r, i + 1 = 2 ^ k := by
  simp only [pos, List.mem_map, List.mem_range]
  constructor
  · rintro ⟨k, hk, rfl⟩
    exact ⟨k, hk, by have := Nat.two_pow_pos k; omega⟩
  · rintro ⟨k, hk, h⟩
    exact ⟨k, hk, by omega⟩

theorem isPar_iff {r i : Nat} : isPar r i = true ↔ ∃ k < r, i + 1 = 2 ^ k := by
  rw [isPar, List.contains_iff_mem, mem_pos]

theorem isPar_pos {r k : Nat} (h : k < r) : isPar r (2 ^ k - 1) = true :=
  isPar_iff.2 ⟨k, h, by have := Nat.two_pow_pos k; omega⟩

/-- The spec's words for a parity position are `IsPar` (40_layout.md R102). -/
@[simp] theorem atParity_eq (r i : Nat) : atParity r i = isPar r i := by
  rw [Bool.eq_iff_iff, isPar_iff]
  simp [atParity]

/-- Distinct parity elements stand at distinct positions. -/
theorem pos_inj {j k : Nat} (h : 2 ^ j - 1 = 2 ^ k - 1) : j = k := by
  have := Nat.two_pow_pos j
  have := Nat.two_pow_pos k
  exact Nat.pow_right_injective le_rfl (by simp only; omega)

/-! ### Coverage (41_placement_parity.md R122) -/

theorem testBit_eq_div (k v : Nat) : v.testBit k = decide (v / 2 ^ k % 2 = 1) := by
  rw [Nat.testBit_eq_decide_div_mod_eq]

/-- An index is covered when its block, counted from p, is an even one. -/
theorem covers_iff {p i : Nat} : covers p i = true ↔ p ≤ i ∧ (i - p) / (p + 1) % 2 = 0 := by
  simp [covers]

@[simp] theorem inGroup_eq (p i : Nat) : inGroup p i = covers p i := by
  rw [Bool.eq_iff_iff, covers_iff]
  simp only [inGroup, decide_eq_true_eq]
  refine and_congr_right fun hp => ?_
  constructor
  · rintro ⟨q, -, hq, h1, h2⟩
    have h : (i - p) / (p + 1) = q := Nat.div_eq_of_lt_le (by omega) (by omega)
    rw [h]; exact hq
  · intro h
    have h1 := Nat.div_mul_le_self (i - p) (p + 1)
    have h2 : i - p < ((i - p) / (p + 1) + 1) * (p + 1) := by
      rw [Nat.mul_comm]; exact Nat.lt_mul_div_succ _ (Nat.succ_pos p)
    exact ⟨(i - p) / (p + 1), (Nat.div_le_self _ _).trans (Nat.sub_le _ _), h, by omega, by omega⟩

/-! ### Bit strings -/

@[simp] theorem bitAt_nil (i : Nat) : bitAt [] i = false := by simp [bitAt]
@[simp] theorem bitAt_cons_zero (x : Bool) (c : Bits) : bitAt (x :: c) 0 = x := rfl
@[simp] theorem bitAt_cons_succ (x : Bool) (c : Bits) (i : Nat) : bitAt (x :: c) (i + 1) = bitAt c i := rfl

theorem bitAt_of_le {c : Bits} {i : Nat} (h : c.length ≤ i) : bitAt c i = false := List.getD_eq_default _ _ h

/-- Bit strings of one length are equal when their elements are. -/
theorem bits_ext {a b : Bits} (hl : a.length = b.length) (h : ∀ i, bitAt a i = bitAt b i) : a = b := by
  refine List.ext_getElem hl fun i h1 h2 => ?_
  have := h i
  rwa [bitAt, bitAt, List.getD_eq_getElem _ _ h1, List.getD_eq_getElem _ _ h2] at this

theorem bitAt_set {c : Bits} {i j : Nat} {x : Bool} (h : i < c.length) :
    bitAt (c.set i x) j = if i = j then x else bitAt c j := by
  simp only [bitAt, List.getD_eq_getElem?_getD, List.getElem?_set, h, if_true]
  split <;> rfl

theorem bitAt_map_range {n : Nat} (f : Nat → Bool) (i : Nat) :
    bitAt ((List.range n).map f) i = (decide (i < n) && f i) := by
  by_cases h : i < n <;> simp [bitAt, List.getD_eq_getElem?_getD, h]

theorem bitAt_append (a b : Bits) (i : Nat) :
    bitAt (a ++ b) i = if i < a.length then bitAt a i else bitAt b (i - a.length) := by
  simp only [bitAt, List.getD_eq_getElem?_getD, List.getElem?_append]
  split <;> rfl

@[simp] theorem bitAt_replicate (z i : Nat) : bitAt (List.replicate z false) i = false := by
  simp only [bitAt, List.getD_eq_getElem?_getD, List.getElem?_replicate]
  split <;> rfl

/-- Bit k of the number a bit string stands for is its element k (43_decoder.md R154). -/
@[simp] theorem testBit_natOfBits (b : Bits) (k : Nat) : (natOfBits b).testBit k = bitAt b k := by
  induction b generalizing k with
  | nil => simp [natOfBits]
  | cons x xs ih =>
    cases k with
    | zero => cases x <;> simp [natOfBits, Nat.testBit_zero]
    | succ k =>
      rw [bitAt_cons_succ, ← ih, natOfBits, Nat.testBit_succ]
      congr 1
      cases x <;> simp
      omega

theorem natOfBits_lt (b : Bits) : natOfBits b < 2 ^ b.length := by
  induction b with
  | nil => simp [natOfBits]
  | cons x xs ih => cases x <;> simp [natOfBits, pow_succ] <;> omega

/-! ### Ports (20_memory.md R51) -/

@[simp] theorem getLsbD_toPort (w : Nat) (b : Bits) (j : Nat) :
    (toPort w b).getLsbD j = (decide (j < w) && bitAt b j) := by
  simp [toPort, BitVec.getLsbD_ofNat]

@[simp] theorem getElem_toPort (w : Nat) (b : Bits) (j : Nat) (h : j < w) : (toPort w b)[j] = bitAt b j := by
  rw [← BitVec.getLsbD_eq_getElem, getLsbD_toPort]; simp [h]

@[simp] theorem fromPort_length {w : Nat} (v : BitVec w) (n : Nat) : (fromPort v n).length = n := by simp [fromPort]

@[simp] theorem bitAt_fromPort {w : Nat} (v : BitVec w) (n j : Nat) :
    bitAt (fromPort v n) j = (decide (j < n) && v.getLsbD j) := bitAt_map_range _ _

@[simp] theorem operandBits_length (s : State) (n : Nat) : (s.operandBits n).length = n := fromPort_length _ _

@[simp] theorem bitAt_operandBits (s : State) (n j : Nat) :
    bitAt (s.operandBits n) j = (decide (j < n) && s.din.getLsbD j) := bitAt_fromPort _ _ _

/-- The operand is the string the port carries (30_encoding.md R72). -/
theorem operandBits_eq (s : State) (n : Nat) : s.operandBits n = portBits s.din n := rfl

/-- A bit string that fits its port is read back whole. -/
@[simp] theorem fromPort_toPort {w : Nat} {b : Bits} (h : b.length ≤ w) : fromPort (toPort w b) b.length = b := by
  refine bits_ext (by simp) fun i => ?_
  by_cases hi : i < b.length
  · simp [hi, Nat.lt_of_lt_of_le hi h]
  · simp [hi, bitAt_of_le (Nat.le_of_not_lt hi)]

/-- A port shows a bit string that fits it (20_memory.md R51). -/
theorem shows_toPort {w : Nat} {b : Bits} (h : b.length ≤ w) : Shows (toPort w b) b := fun j => by
  by_cases hj : j < w
  · simp [hj]
  · simp [hj, bitAt_of_le (h.trans (Nat.le_of_not_lt hj))]

/-- What a port shows is what it holds. -/
theorem Shows.eq_toPort {w : Nat} {v : BitVec w} {b : Bits} (h : Shows v b) : v = toPort w b := by
  refine BitVec.eq_of_getLsbD_eq fun j hj => ?_
  rw [h j, getLsbD_toPort]; simp [hj]

/-! ### Data slots (43_decoder.md R150) and placement (41_placement_parity.md R120) -/

@[simp] theorem placeFrom_length (r i count : Nat) (b : Bits) : (placeFrom r i count b).length = count := by
  induction count generalizing i b with
  | zero => rfl
  | succ c ih =>
    simp only [placeFrom]
    split
    · simp [ih]
    · split <;> simp [ih]

@[simp] theorem place_length (b : Bits) (r : Nat) : (place b r).length = b.length + r := placeFrom_length _ _ _ _

/-- The slots of a buffer from index `i` on that are data slots. -/
def slotCount (r i count : Nat) : Nat := (List.range' i count).countP fun j => !isPar r j

theorem slotCount_succ (r i count : Nat) :
    slotCount r i (count + 1) = (if isPar r i then 0 else 1) + slotCount r (i + 1) count := by
  simp only [slotCount, List.range'_succ, List.countP_cons]
  cases isPar r i <;> simp [Nat.add_comm]

theorem extractFrom_length (r i : Nat) (c : Bits) : (extractFrom r i c).length = slotCount r i c.length := by
  induction c generalizing i with
  | nil => rfl
  | cons x xs ih =>
    simp only [extractFrom, List.length_cons, slotCount_succ]
    split <;> simp [ih, Nat.add_comm]

/-- The data slots of a placed buffer hold the message's first bits, then zeros (41_placement_parity.md R120). -/
theorem extractFrom_placeFrom (r i count : Nat) (b : Bits) :
    extractFrom r i (placeFrom r i count b) =
      b.take (slotCount r i count) ++ List.replicate (slotCount r i count - b.length) false := by
  induction count generalizing i b with
  | zero => simp [placeFrom, extractFrom, slotCount]
  | succ c ih =>
    rw [slotCount_succ]
    simp only [placeFrom]
    by_cases h : isPar r i = true
    · simp [h, extractFrom, ih]
    · cases b with
      | nil => simp [h, extractFrom, ih, Nat.add_comm 1, List.replicate_succ]
      | cons x xs => simp [h, extractFrom, ih, Nat.add_comm 1]

/-- Placing a string's own data bits gives it back with its parity slots cleared. -/
theorem bitAt_placeFrom_extractFrom (r i : Nat) (c : Bits) (j : Nat) :
    bitAt (placeFrom r i c.length (extractFrom r i c)) j = (!isPar r (i + j) && bitAt c j) := by
  induction c generalizing i j with
  | nil => simp [placeFrom]
  | cons x xs ih =>
    simp only [List.length_cons, placeFrom, extractFrom]
    by_cases h : isPar r i = true
    · cases j with
      | zero => simp [h]
      | succ j => simp [h, ih, Nat.add_assoc, Nat.add_comm 1]
    · cases j with
      | zero => simp [h]
      | succ j => simp [h, ih, Nat.add_assoc, Nat.add_comm 1]

/-- A parity slot of a placed buffer is 0 (41_placement_parity.md R120). -/
theorem bitAt_placeFrom_isPar (r i count : Nat) (b : Bits) (j : Nat) (h : isPar r (i + j) = true) :
    bitAt (placeFrom r i count b) j = false := by
  induction count generalizing i b j with
  | zero => simp [placeFrom]
  | succ c ih =>
    have hs : i + 1 + (j - 1) = i + j ∨ j = 0 := by omega
    cases j with
    | zero => simp only [placeFrom, Nat.add_zero] at h ⊢; simp [h]
    | succ j =>
      simp only [placeFrom]
      have h' : isPar r (i + 1 + j) = true := by rw [← h]; congr 1; omega
      split
      · simp [ih _ _ _ h']
      · split <;> simp [ih _ _ _ h']

/-- Two strings of one length with the same data bits and the same bits at the parity positions are equal. -/
theorem eq_of_extractFrom_eq {r i : Nat} {a b : Bits} (hl : a.length = b.length)
    (hx : extractFrom r i a = extractFrom r i b) (hp : ∀ j, isPar r (i + j) = true → bitAt a j = bitAt b j) : a = b := by
  refine bits_ext hl fun j => ?_
  by_cases h : isPar r (i + j) = true
  · exact hp j h
  · have ha := bitAt_placeFrom_extractFrom r i a j
    have hb := bitAt_placeFrom_extractFrom r i b j
    rw [hx, hl] at ha
    simpa [h] using ha.symm.trans hb

/-- Setting a parity slot changes no data bit. -/
theorem extractFrom_set {r i j : Nat} (c : Bits) (x : Bool) (h : isPar r (i + j) = true) :
    extractFrom r i (c.set j x) = extractFrom r i c := by
  induction c generalizing i j with
  | nil => simp
  | cons y ys ih =>
    cases j with
    | zero => simp only [Nat.add_zero] at h; simp [extractFrom, h]
    | succ j =>
      have h' : isPar r (i + 1 + j) = true := by rw [← h]; congr 1; omega
      simp [extractFrom, ih h']

/-- `Extract` is the list of the bits at the data slots (43_decoder.md R150). -/
theorem dataSlots_eq (c : Bits) (r : Nat) : dataSlots c r = extract c r := by
  have h : ∀ (i : Nat) (c : Bits), ((List.range c.length).filter fun j => !isPar r (i + j)).map (bitAt c) =
      extractFrom r i c := by
    intro i c
    induction c generalizing i with
    | nil => rfl
    | cons x xs ih =>
      have hsh : (fun j => !isPar r (i + j)) ∘ Nat.succ = fun j => !isPar r (i + 1 + j) := by
        funext j; simp only [Function.comp, Nat.succ_eq_add_one]; congr 2; omega
      rw [List.length_cons, List.range_succ_eq_map, List.filter_cons, List.filter_map, hsh]
      by_cases hp : isPar r i = true
      · simp [hp, extractFrom, ← ih, Function.comp_def]
      · simp [hp, extractFrom, ← ih, Function.comp_def]
  have := h 0 c
  simpa [dataSlots, extract] using this

/-- The slots up to an index, less the parity positions among them, are the data slots. -/
theorem slotCount_add (r count : Nat) : slotCount r 0 count + ((List.range count).countP (isPar r)) = count := by
  rw [slotCount, ← List.range_eq_range']
  have := List.length_eq_countP_add_countP (isPar r) (l := List.range count)
  rw [List.length_range] at this
  have h2 : (List.range count).countP (fun j => !isPar r j) = (List.range count).countP (fun j => decide (¬isPar r j = true)) := by
    congr 1; funext j; cases isPar r j <;> rfl
  omega

/-! ### Parity (41_placement_parity.md R125) -/

/-- The parity of a group counts its ones. -/
theorem groupParityFrom_eq (p i : Nat) (c : Bits) :
    groupParityFrom p i c = decide ((List.range c.length).countP (fun j => covers p (i + j) && bitAt c j) % 2 = 1) := by
  induction c generalizing i with
  | nil => rfl
  | cons x xs ih =>
    have hsh : (fun j => covers p (i + j) && bitAt (x :: xs) j) ∘ Nat.succ =
        fun j => covers p (i + 1 + j) && bitAt xs j := by
      funext j; simp only [Function.comp, Nat.succ_eq_add_one, bitAt_cons_succ]; congr 2; omega
    rw [groupParityFrom, ih, List.length_cons, List.range_succ_eq_map, List.countP_cons, List.countP_map, hsh]
    simp only [Nat.add_zero, bitAt_cons_zero]
    generalize (List.range xs.length).countP _ = v
    cases covers p i <;> cases x <;> rw [Bool.eq_iff_iff] <;> simp
    omega

/-- `Parities` in the spec's words: 1 when the count of ones in the group is odd (41_placement_parity.md R125). -/
theorem groupParity_eq (p : Nat) (c : Bits) : groupParity p c = oddOnes c (covers p) := by
  rw [groupParity, groupParityFrom_eq]; simp [oddOnes]

@[simp] theorem parities_length (c : Bits) (r : Nat) : (parities c r).length = r := by simp [parities]

theorem bitAt_parities (c : Bits) (r k : Nat) :
    bitAt (parities c r) k = (decide (k < r) && oddOnes c (covers (2 ^ k - 1))) := by
  rw [parities, bitAt_map_range, groupParity_eq]

/-- Counting ones sees only the bits. -/
theorem oddOnes_congr {a b : Bits} {g h : Nat → Bool} (hl : a.length = b.length)
    (hb : ∀ i, (g i && bitAt a i) = (h i && bitAt b i)) : oddOnes a g = oddOnes b h := by
  simp only [oddOnes, hl, hb]

/-! ### The encoder (42_encoder.md R140) -/

@[simp] theorem writeParities_length (k : Nat) (p c : Bits) : (writeParities k p c).length = c.length := by
  induction p generalizing k c with
  | nil => rfl
  | cons x xs ih => simp [writeParities, ih]

/-- Writing the parities from element `k` on changes no other slot. -/
theorem bitAt_writeParities_of_ne (k : Nat) (p c : Bits) (i : Nat)
    (h : ∀ j, j < p.length → i ≠ 2 ^ (k + j) - 1) : bitAt (writeParities k p c) i = bitAt c i := by
  induction p generalizing k c with
  | nil => rfl
  | cons x xs ih =>
    have h0 := h 0 (by simp)
    rw [writeParities, ih]
    · simp only [Nat.add_zero] at h0
      simp only [bitAt, List.getD_eq_getElem?_getD, List.getElem?_set]
      simp [Ne.symm h0]
    · intro j hj
      have := h (j + 1) (by simpa using hj)
      rwa [show k + 1 + j = k + (j + 1) by omega]

/-- Each parity stands at its position afterwards (42_encoder.md R140 step 4). -/
theorem bitAt_writeParities (k : Nat) (p c : Bits) (j : Nat) (hj : j < p.length) (hc : 2 ^ (k + j) - 1 < c.length) :
    bitAt (writeParities k p c) (2 ^ (k + j) - 1) = bitAt p j := by
  induction p generalizing k c j with
  | nil => simp at hj
  | cons x xs ih =>
    rw [writeParities]
    cases j with
    | zero =>
      rw [bitAt_writeParities_of_ne, Nat.add_zero, bitAt_set (by simpa using hc)]
      · simp
      · intro j _ h
        have := pos_inj h
        omega
    | succ j =>
      have e : k + (j + 1) = k + 1 + j := by omega
      rw [e] at hc ⊢
      rw [ih (k + 1) _ j (by simpa using hj) (by simpa using hc), bitAt_cons_succ]

/-- Writing the parities changes no data bit. -/
theorem extractFrom_writeParities {r k : Nat} (p c : Bits) (h : k + p.length ≤ r) :
    extractFrom r 0 (writeParities k p c) = extractFrom r 0 c := by
  induction p generalizing k c with
  | nil => rfl
  | cons x xs ih =>
    simp only [List.length_cons] at h
    rw [writeParities, ih _ (by omega), extractFrom_set]
    rw [Nat.zero_add]
    exact isPar_pos (by omega)

/-- Every parity position lies within a string that is long enough for the last. -/
theorem countP_isPar (r n : Nat) (h : ∀ k, k < r → 2 ^ k ≤ n) : (List.range n).countP (isPar r) = r := by
  have hp : ((List.range n).filter (isPar r)).Perm (pos r) := by
    refine (List.perm_ext_iff_of_nodup (List.nodup_range.filter _) ?_).2 fun i => ?_
    · exact List.nodup_range.map_on fun a _ b _ => pos_inj
    · simp only [List.mem_filter, List.mem_range, mem_pos, isPar_iff]
      constructor
      · exact fun hi => hi.2
      · rintro ⟨k, hk, e⟩
        have := h k hk
        exact ⟨by omega, k, hk, e⟩
  rw [List.countP_eq_length_filter, hp.length_eq, pos_length]

/-- A codeword length that the encoder or the length check gives holds every parity position (40_layout.md R103). -/
theorem slotCount_eq {r n : Nat} (h : ∀ k, k < r → 2 ^ k ≤ n) : slotCount r 0 n = n - r := by
  have := slotCount_add r n
  rw [countP_isPar r n h] at this
  omega

/-- The parity positions of a message's own count lie within its codeword (40_layout.md R103, 41_placement_parity.md
R121). -/
theorem two_pow_le_of_lt_pcd {m k : Nat} (hk : k < pcd m) : 2 ^ k ≤ m + pcd m := by
  have h1 := pcd_min m (pcd m - 1) (by omega)
  have h2 : 2 ^ k ≤ 2 ^ (pcd m - 1) := Nat.pow_le_pow_right (by omega) (by omega)
  omega

/-- The parity positions of a length's own count lie within that length (40_layout.md R103). -/
theorem two_pow_le_of_lt_pcc {n k : Nat} (hk : k < pcc n) : 2 ^ k ≤ n := by
  have := pcc_min n k hk
  omega

/-- `Extract` takes as many bits as there are data slots. -/
theorem extract_length {r : Nat} {c : Bits} (h : ∀ k, k < r → 2 ^ k ≤ c.length) : (extract c r).length = c.length - r := by
  rw [extract, extractFrom_length, slotCount_eq h]

/-- `Place` with the encoder's own count leaves no slot over (41_placement_parity.md R121). -/
theorem extract_place {b : Bits} (r : Nat) (h : ∀ k, k < r → 2 ^ k ≤ b.length + r) : extract (place b r) r = b := by
  rw [extract, place, extractFrom_placeFrom, slotCount_eq h]
  simp

/-- What `Encode` gives, in the spec's words (42_encoder.md R140). -/
theorem encodeBits_isCodeword (b : Bits) :
    IsCodeword b (pcd b.length) (encodeBits b).codeword (encodeBits b).parity where
  length := by simp [encodeBits]
  parity_length := by simp [encodeBits]
  data := by
    rw [dataSlots_eq, encodeBits, extract, extractFrom_writeParities _ _ (by simp)]
    exact extract_place _ fun k hk => two_pow_le_of_lt_pcd hk
  parity := by
    intro k hk
    have hlen : (encodeBits b).codeword.length = (place b (pcd b.length)).length := by simp [encodeBits]
    have hpar : (encodeBits b).parity = parities (place b (pcd b.length)) (pcd b.length) := rfl
    rw [hpar, bitAt_parities]
    simp only [hk, decide_true, Bool.true_and, inGroup_eq, atParity_eq]
    refine oddOnes_congr hlen.symm fun i => ?_
    by_cases hi : isPar (pcd b.length) i = true
    · simp [hi, place, bitAt_placeFrom_isPar _ 0 _ _ i (by simpa using hi)]
    · have : bitAt (encodeBits b).codeword i = bitAt (place b (pcd b.length)) i :=
        bitAt_writeParities_of_ne 0 _ _ i fun j hj e => hi (by
          rw [e, Nat.zero_add]; exact isPar_pos (by simpa using hj))
      simp [hi, this]
  placed := by
    intro k hk
    have := two_pow_le_of_lt_pcd hk
    have h := bitAt_writeParities 0 (parities (place b (pcd b.length)) (pcd b.length)) (place b (pcd b.length)) k
      (by simpa using hk) (by have := Nat.two_pow_pos k; rw [Nat.zero_add, place_length]; omega)
    rw [Nat.zero_add] at h
    exact h

theorem encodeMessage_of_pos {b : Bits} (h : 1 ≤ b.length) : encodeMessage b = .ok (encodeBits b) := by
  rw [encodeMessage, if_neg (by omega)]

/-! ### The length check and the syndrome generator (43_decoder.md R152, R154) -/

/-- Everything the length check says of a length it accepts (43_decoder.md R152). -/
theorem checkLength_ok {nMax n r : Nat} (h : checkLength nMax n = .ok r) :
    r = pcc n ∧ 1 ≤ n ∧ n ≤ nMax ∧ 1 ≤ n - r ∧ pcd (n - r) = r := by
  unfold checkLength at h
  split at h
  · cases h
  · split at h
    · cases h
    · split at h
      · cases h
      · cases h
        exact ⟨rfl, by omega, by omega, by omega, by omega⟩

/-- Placing the data bits of a string of an accepted length clears its parity slots. -/
theorem bitAt_place_extract {c : Bits} {r : Nat} (h : (extract c r).length + r = c.length) (i : Nat) :
    bitAt (place (extract c r) r) i = (!isPar r i && bitAt c i) := by
  rw [place, h, extract, bitAt_placeFrom_extractFrom, Nat.zero_add]

theorem bitAt_parBits (c : Bits) (r k : Nat) : bitAt (parBits c r) k = (decide (k < r) && bitAt c (2 ^ k - 1)) := by
  rw [parBits, pos, List.map_map]
  exact bitAt_map_range _ _

@[simp] theorem parBits_length (c : Bits) (r : Nat) : (parBits c r).length = r := by simp [parBits]

theorem bitAt_zipWith_xor {a b : Bits} (h : a.length = b.length) (k : Nat) :
    bitAt (List.zipWith Bool.xor a b) k = (bitAt a k ^^ bitAt b k) := by
  by_cases hk : k < a.length
  · simp [bitAt, List.getD_eq_getElem?_getD, hk, h ▸ hk]
  · rw [bitAt_of_le (by simp; omega), bitAt_of_le (by omega), bitAt_of_le (by omega)]; rfl

/-- The syndrome generator on a length that the check accepts (43_decoder.md R154). -/
theorem syndrome_of_checkLength {nMax : Nat} {c : Bits} {r : Nat} (h : checkLength nMax c.length = .ok r) :
    syndrome nMax c = .ok
      { r := r
        data := extract c r
        expected := (encodeBits (extract c r)).parity
        syndrome := natOfBits (List.zipWith Bool.xor (parBits c r) (encodeBits (extract c r)).parity) } := by
  obtain ⟨rfl, -, -, h1, -⟩ := checkLength_ok h
  have hx : 1 ≤ (extract c (pcc c.length)).length := by
    rw [extract_length fun k hk => two_pow_le_of_lt_pcc hk]; exact h1
  simp [syndrome, h, encodeMessage_of_pos hx, bind, Except.bind, pure, Except.pure]

/-- The syndrome generator on a length that the check refuses: the same fault (43_decoder.md R154). -/
theorem syndrome_of_error {nMax : Nat} {c : Bits} {k : FaultKind} (h : checkLength nMax c.length = .error k) :
    syndrome nMax c = .error k := by
  simp [syndrome, h, bind, Except.bind]

/-- What the syndrome generator finds, in the spec's words (43_decoder.md R154). -/
theorem syndrome_isSyndrome {nMax : Nat} {c : Bits} {y : SyndromeResult} (h : syndrome nMax c = .ok y) :
    checkLength nMax c.length = .ok y.r ∧ IsSyndrome c y.r y.data y.expected y.syndrome := by
  cases hc : checkLength nMax c.length with
  | error k => rw [syndrome_of_error hc] at h; cases h
  | ok r =>
    obtain ⟨hr, -, -, h1, h2⟩ := checkLength_ok hc
    rw [syndrome_of_checkLength hc] at h
    cases h
    have hx : (extract c r).length = c.length - r := by
      subst hr; exact extract_length fun k hk => two_pow_le_of_lt_pcc hk
    have hcw := encodeBits_isCodeword (extract c r)
    have hpl : (encodeBits (extract c r)).parity.length = r := by rw [hcw.parity_length, hx, h2]
    refine ⟨rfl, ⟨?_, ?_, hpl, ?_, ?_⟩⟩
    · subst hr; exact pcc_spec _
    · rw [dataSlots_eq]
    · intro k hk
      have hp : (encodeBits (extract c r)).parity = parities (place (extract c r) r) r := by
        simp only [encodeBits]; rw [hx, h2]
      have hl : (extract c r).length + r = c.length := by omega
      simp only [hp, bitAt_parities, hk, decide_true, Bool.true_and, inGroup_eq, atParity_eq]
      refine oddOnes_congr (by rw [place_length, hl]) fun i => ?_
      rw [bitAt_place_extract hl, Bool.and_assoc]
    · intro k
      simp only [testBit_natOfBits]
      rw [bitAt_zipWith_xor (by rw [hpl, parBits_length]), bitAt_parBits]
      by_cases hk : k < r
      · simp [hk]
      · simp [hk, bitAt_of_le (show (encodeBits (extract c r)).parity.length ≤ k by omega)]

/-! ### The decoder (43_decoder.md R157) -/

/-- `Decode` is the syndrome generator, the locator and the flip (43_decoder.md R157). -/
theorem decodeCodeword_eq {nMax : Nat} {c : Bits} {y : SyndromeResult} (h : syndrome nMax c = .ok y) :
    decodeCodeword nMax c = .ok (
      if y.syndrome = 0 then { status := .noError, message := y.data, corrected := none }
      else if y.syndrome ≤ c.length then
        { status := .corrected
          message := extract (flipBit c (y.syndrome - 1)) y.r
          corrected := some (flipBit c (y.syndrome - 1)) }
      else { status := .uncorrectable, message := y.data, corrected := none }) := by
  by_cases h0 : y.syndrome = 0
  · simp [decodeCodeword, h, bind, Except.bind, pure, Except.pure, locate, h0]
  · by_cases h1 : y.syndrome ≤ c.length <;>
      simp [decodeCodeword, h, bind, Except.bind, pure, Except.pure, locate, h0, h1]

theorem decodeCodeword_of_error {nMax : Nat} {c : Bits} {k : FaultKind} (h : syndrome nMax c = .error k) :
    decodeCodeword nMax c = .error k := by
  simp [decodeCodeword, h, bind, Except.bind]

@[simp] theorem flipBit_length (c : Bits) (i : Nat) : (flipBit c i).length = c.length := by simp [flipBit]

/-- Flipping a bit within the string changes that bit and no other (00_scope.md R10). -/
theorem bitAt_flipBit {c : Bits} {i : Nat} (h : i < c.length) (j : Nat) :
    bitAt (flipBit c i) j = (bitAt c j ^^ decide (j = i)) := by
  rw [flipBit, bitAt_set h]
  by_cases hj : j = i
  · subst hj; simp [bitAt]
  · simp [hj, Ne.symm hj]

end Sys2Proof.Machine
end

