-- ==== Sys2Proof/Laws/Decode.lean ====
section
/-!
SUPPORT. The fields of a control word, and what the decoder answers (30_encoding.md R71, R74).
-/

namespace Sys2Proof

theorem ctrlLen_lt (w : Word) : ctrlLen w < 256 := (w.extractLsb' 8 8).isLt

theorem ctrlArg_lt (w : Word) : ctrlArg w < 256 := (w.extractLsb' 16 8).isLt

/-- The fields of an assembled word (30_encoding.md R79), as a number. -/
theorem ctrlWord_toNat {op len arg : Nat} (ho : op < 16) (hl : len < 256) (ha : arg < 256) :
    (ctrlWord op len arg).toNat = arg * 65536 + len * 256 + op := by
  have h : (arg <<< 16 ||| len <<< 8) ||| op = arg * 65536 + len * 256 + op := by
    rw [← Nat.shiftLeft_add_eq_or_of_lt (a := arg) (i := 16) (b := len <<< 8) (by rw [Nat.shiftLeft_eq]; omega)]
    rw [show arg <<< 16 + len <<< 8 = (arg * 256 + len) <<< 8 by simp only [Nat.shiftLeft_eq]; omega]
    rw [← Nat.shiftLeft_add_eq_or_of_lt (by omega)]
    simp only [Nat.shiftLeft_eq]; omega
  have e1 : (BitVec.ofNat 32 arg <<< 16).toNat = arg <<< 16 := by
    simp only [BitVec.toNat_shiftLeft, BitVec.toNat_ofNat, Nat.shiftLeft_eq]; omega
  have e2 : (BitVec.ofNat 32 len <<< 8).toNat = len <<< 8 := by
    simp only [BitVec.toNat_shiftLeft, BitVec.toNat_ofNat, Nat.shiftLeft_eq]; omega
  have e3 : (BitVec.ofNat 32 op).toNat = op := by simp only [BitVec.toNat_ofNat]; omega
  rw [ctrlWord, BitVec.toNat_or, BitVec.toNat_or, e1, e2, e3, h]

/-- An operation the decoder reads is well formed. -/
theorem decode_wellFormed {w : Word} {i : Instr} (h : decode w = .ok i) : i.wellFormed = true := by
  have hl := ctrlLen_lt w
  have ha := ctrlArg_lt w
  unfold decode at h
  split at h
  · cases h
  · split at h <;> cases h <;> simp [Instr.wellFormed, hl, ha]

end Sys2Proof
end

