-- ==== Sys2Proof/Laws/State.lean ====
section
/-!
SUPPORT. One lemma for each field of State and each update of it, so that no proof unfolds a record update.
-/

namespace Sys2Proof.Machine

variable (s : State)

/-! ### withOut -/

@[simp] theorem State.withOut_cfg (o : Outputs s.cfg.nMax) : (s.withOut o).cfg = s.cfg := rfl
@[simp] theorem State.withOut_ctrl (o : Outputs s.cfg.nMax) : (s.withOut o).ctrl = s.ctrl := rfl
@[simp] theorem State.withOut_din (o : Outputs s.cfg.nMax) : (s.withOut o).din = s.din := rfl
@[simp] theorem State.withOut_out (o : Outputs s.cfg.nMax) : (s.withOut o).out = o := rfl
@[simp] theorem State.withOut_host (o : Outputs s.cfg.nMax) : (s.withOut o).host = s.host := rfl
@[simp] theorem State.withOut_draws (o : Outputs s.cfg.nMax) : (s.withOut o).draws = s.draws := rfl
@[simp] theorem State.withOut_withOut (o o' : Outputs s.cfg.nMax) : (s.withOut o).withOut o' = s.withOut o' := rfl
@[simp] theorem State.withOut_self : s.withOut s.out = s := rfl

/-- Two responses from one state are equal only when their output registers are. -/
theorem State.withOut_inj {o o' : Outputs s.cfg.nMax} (h : s.withOut o = s.withOut o') : o = o' := by
  cases s; simpa [State.withOut] using h

/-! ### withHost -/

@[simp] theorem State.withHost_cfg (h : List (HostEvent s.cfg.nMax)) : (s.withHost h).cfg = s.cfg := rfl
@[simp] theorem State.withHost_ctrl (h : List (HostEvent s.cfg.nMax)) : (s.withHost h).ctrl = s.ctrl := rfl
@[simp] theorem State.withHost_din (h : List (HostEvent s.cfg.nMax)) : (s.withHost h).din = s.din := rfl
@[simp] theorem State.withHost_out (h : List (HostEvent s.cfg.nMax)) : (s.withHost h).out = s.out := rfl
@[simp] theorem State.withHost_host (h : List (HostEvent s.cfg.nMax)) : (s.withHost h).host = h := rfl
@[simp] theorem State.withHost_draws (h : List (HostEvent s.cfg.nMax)) : (s.withHost h).draws = s.draws := rfl

/-! ### drivePorts -/

@[simp] theorem State.drivePorts_cfg (c : Word) (d : BitVec s.cfg.nMax) : (s.drivePorts c d).cfg = s.cfg := rfl
@[simp] theorem State.drivePorts_ctrl (c : Word) (d : BitVec s.cfg.nMax) : (s.drivePorts c d).ctrl = c := rfl
@[simp] theorem State.drivePorts_din (c : Word) (d : BitVec s.cfg.nMax) : (s.drivePorts c d).din = d := rfl
@[simp] theorem State.drivePorts_out (c : Word) (d : BitVec s.cfg.nMax) : (s.drivePorts c d).out = s.out := rfl
@[simp] theorem State.drivePorts_host (c : Word) (d : BitVec s.cfg.nMax) : (s.drivePorts c d).host = s.host := rfl
@[simp] theorem State.drivePorts_draws (c : Word) (d : BitVec s.cfg.nMax) : (s.drivePorts c d).draws = s.draws := rfl

/-! ### resetOutputs -/

@[simp] theorem State.resetOutputs_cfg : s.resetOutputs.cfg = s.cfg := rfl
@[simp] theorem State.resetOutputs_ctrl : s.resetOutputs.ctrl = s.ctrl := rfl
@[simp] theorem State.resetOutputs_din : s.resetOutputs.din = s.din := rfl
@[simp] theorem State.resetOutputs_out : s.resetOutputs.out = Outputs.reset s.cfg.nMax := rfl
@[simp] theorem State.resetOutputs_host : s.resetOutputs.host = s.host := rfl
@[simp] theorem State.resetOutputs_draws : s.resetOutputs.draws = s.draws := rfl

/-! ### withUnspecifiedOutputs -/

@[simp] theorem State.withUnspecifiedOutputs_cfg : s.withUnspecifiedOutputs.cfg = s.cfg := rfl
@[simp] theorem State.withUnspecifiedOutputs_ctrl : s.withUnspecifiedOutputs.ctrl = s.ctrl := rfl
@[simp] theorem State.withUnspecifiedOutputs_din : s.withUnspecifiedOutputs.din = s.din := rfl
@[simp] theorem State.withUnspecifiedOutputs_host : s.withUnspecifiedOutputs.host = s.host := rfl
@[simp] theorem State.withUnspecifiedOutputs_draws : s.withUnspecifiedOutputs.draws = s.draws + 11 := rfl

/-! ### withFetchWord -/

@[simp] theorem State.withFetchWord_cfg (nbits w : Nat) : (s.withFetchWord nbits w).cfg = s.cfg := rfl
@[simp] theorem State.withFetchWord_ctrl (nbits w : Nat) :
    (s.withFetchWord nbits w).ctrl = BitVec.ofNat 32 (w % 2 ^ nbits) := rfl
@[simp] theorem State.withFetchWord_din (nbits w : Nat) : (s.withFetchWord nbits w).din = s.din := rfl
@[simp] theorem State.withFetchWord_out (nbits w : Nat) : (s.withFetchWord nbits w).out = s.out := rfl
@[simp] theorem State.withFetchWord_host (nbits w : Nat) :
    (s.withFetchWord nbits w).host = .request .undisturbed :: s.host := rfl
@[simp] theorem State.withFetchWord_draws (nbits w : Nat) : (s.withFetchWord nbits w).draws = s.draws := rfl

end Sys2Proof.Machine
end

