-- ==== Sys2Proof/Laws/Ops.lean ====
section
/-!
SUPPORT. What each shared operation and each meaning can do, once, for proofs to cite instead of unfolding it.
-/

namespace Sys2Proof.Machine

/-! ### Registers -/

theorem toByte_toNat {v : Nat} (h : v < 256) : (toByte v).toNat = v := by
  simp only [toByte, BitVec.toNat_ofNat]; omega

@[simp] theorem getLsbD_toByte (v k : Nat) : (toByte v).getLsbD k = (decide (k < 8) && v.testBit k) := by
  simp [toByte, BitVec.getLsbD_ofNat]

@[simp] theorem getLsbD_toPout (p : Bits) (k : Nat) : (toPout p).getLsbD k = (decide (k < 8) && bitAt p k) :=
  getLsbD_toPort 8 p k

@[simp] theorem Status.ofCode_code (st : Status) : Status.ofCode st.code = st := by cases st <;> rfl

@[simp] theorem FaultCode.ofCode_code (f : FaultCode) : FaultCode.ofCode f.code = f := by cases f <;> rfl

theorem FaultKind.toCode_ne_ok (k : FaultKind) : k.toCode ≠ .ok := by cases k <;> decide

theorem FaultKind.toCode_inj {k k' : FaultKind} (h : k.toCode = k'.toCode) : k = k' := by
  cases k <;> cases k' <;> first | rfl | cases h

/-! ### Responses -/

@[simp] theorem respond_eq (s : State) (o : Outputs s.cfg.nMax) : respond s o = .next (s.withOut o) := rfl

@[simp] theorem raiseFault_eq (k : FaultKind) (s : State) :
    raiseFault k s = .next (s.withOut (Outputs.faultResponse s.cfg.nMax k)) := rfl

/-- An operation answers the fault response of some kind, or a response without fault; either sets RVALID (10_state.md
R30, R40). -/
theorem exec_responds (i : Instr) (s : State) :
    ∃ o, exec i s = .next (s.withOut o) ∧ o.rvalid = true ∧
      (o.fault = .ok ∨ ∃ k, o = Outputs.faultResponse s.cfg.nMax k) := by
  have fault : ∀ k, ∃ o, raiseFault k s = .next (s.withOut o) ∧ o.rvalid = true ∧
      (o.fault = .ok ∨ ∃ k, o = Outputs.faultResponse s.cfg.nMax k) := fun k => ⟨_, rfl, rfl, .inr ⟨k, rfl⟩⟩
  cases i with
  | pcd m => exact ⟨_, rfl, rfl, .inl rfl⟩
  | pcc n => exact ⟨_, rfl, rfl, .inl rfl⟩
  | pos r =>
    simp only [exec, execPos]
    split
    · exact fault _
    · exact ⟨_, rfl, rfl, .inl rfl⟩
  | plc m r =>
    simp only [exec, execPlc]
    split
    · exact fault _
    · exact ⟨_, rfl, rfl, .inl rfl⟩
  | par n r =>
    simp only [exec, execPar]
    split
    · exact fault _
    · exact ⟨_, rfl, rfl, .inl rfl⟩
  | enc m =>
    simp only [exec, execEnc]
    split
    · exact fault _
    · split
      · exact fault _
      · exact ⟨_, rfl, rfl, .inl rfl⟩
  | syn n =>
    simp only [exec, execSyn]
    split
    · exact fault _
    · exact ⟨_, rfl, rfl, .inl rfl⟩
  | loc n sy =>
    simp only [exec, execLoc]
    split
    · exact fault _
    · exact ⟨_, rfl, rfl, .inl rfl⟩
  | dec n =>
    simp only [exec, execDec]
    split
    · exact fault _
    · exact fault _
    · exact ⟨_, rfl, rfl, .inl rfl⟩

/-- A request answers with one response: of the operation its control word names, or IllegalOp (10_state.md R40,
60_exceptions.md R203). -/
theorem runRequest_cases (s : State) :
    (∃ i, decode s.ctrl = .ok i ∧ runRequest s = exec i s) ∨
    (∃ e, decode s.ctrl = .error e ∧
      runRequest s = .next (s.withOut (Outputs.faultResponse s.cfg.nMax .illegalOp))) := by
  cases h : decode s.ctrl with
  | ok i => exact .inl ⟨i, rfl, by simp [runRequest, h]⟩
  | error e => exact .inr ⟨e, rfl, by simp [runRequest, h]⟩

/-! ### The step -/

theorem step_idle {s : State} (h : s.host = []) : step s = .next s := by simp [step, h]

theorem step_cons {s : State} {e : HostEvent s.cfg.nMax} {rest : List (HostEvent s.cfg.nMax)} (h : s.host = e :: rest) :
    step s = interact (s.withHost rest) e := by simp [step, h]

/-- ENC on a length it accepts (42_encoder.md R141). -/
theorem execEnc_of_accepted {s : State} {m : Nat} (h1 : 1 ≤ m) (h2 : m ≤ mMax s.cfg.nMax) :
    execEnc m s = .next (s.withOut { Outputs.unassigned s.cfg.nMax with
      dout := toPort s.cfg.nMax (encodeBits (s.operandBits m)).codeword
      dlen := toByte (m + pcd m)
      pout := toPout (encodeBits (s.operandBits m)).parity
      rout := toByte (pcd m) }) := by
  rw [execEnc, if_neg (by omega), encodeMessage_of_pos (by simpa using h1)]
  rfl

/-- SYN on a length the check accepts (43_decoder.md R158). -/
theorem execSyn_of_ok {s : State} {n : Nat} {y : SyndromeResult} (h : syndrome s.cfg.nMax (s.operandBits n) = .ok y) :
    execSyn n s = .next (s.withOut { Outputs.unassigned s.cfg.nMax with
      dout := toPort s.cfg.nMax y.data
      dlen := toByte (n - y.r)
      pout := toPout y.expected
      rout := toByte y.r
      syn := toByte y.syndrome }) := by
  rw [execSyn, h]; rfl

/-- SYN and DEC on a length the check refuses: the same fault (43_decoder.md R158, R160). -/
theorem execSyn_of_error {s : State} {n : Nat} {k : FaultKind} (h : checkLength s.cfg.nMax n = .error k) :
    execSyn n s = raiseFault k s := by
  rw [execSyn, syndrome_of_error (by simpa using h)]

theorem execDec_of_error {s : State} {n : Nat} {k : FaultKind} (h : checkLength s.cfg.nMax n = .error k) :
    execDec n s = raiseFault k s := by
  simp only [execDec, syndrome_of_error (c := s.operandBits n) (by simpa using h)]

/-- DEC on a length the check accepts (43_decoder.md R160). -/
theorem execDec_of_ok {s : State} {n : Nat} {y : SyndromeResult} {d : Decoded}
    (hy : syndrome s.cfg.nMax (s.operandBits n) = .ok y) (hd : decodeCodeword s.cfg.nMax (s.operandBits n) = .ok d) :
    execDec n s = .next (s.withOut (decResponse s.cfg.nMax n y (locate n y.syndrome).2 d)) := by
  simp only [execDec, hy, hd]; rfl

end Sys2Proof.Machine
end

