-- ==== Sys2Proof/Laws/PerInstr.lean ====
section
/-!
SUPPORT. Per-instruction families (LAWS.json). TableRow: the word of a well-formed operation matches its row of
spec/opcode_table.json under the mask 0xFF0000FF (30_encoding.md R75).
-/

namespace Sys2Proof.Laws

/-- The fixed bits of an assembled word are those of its row. -/
theorem ctrlWord_masked {op len arg : Nat} (ho : op < 16) (hl : len < 256) (ha : arg < 256) :
    ctrlWord op len arg &&& 0xFF0000FF#32 = BitVec.ofNat 32 op := by
  have h := ctrlWord_toNat ho hl ha
  generalize ctrlWord op len arg = w at h ⊢
  obtain rfl : w = BitVec.ofNat 32 (arg * 65536 + len * 256 + op) := by
    rw [← h, BitVec.ofNat_toNat, BitVec.setWidth_eq]
  have hlow : (arg * 65536 + len * 256 + op) % 256 = op := by omega
  have hhigh : (arg * 65536 + len * 256 + op) / 2 ^ 24 = 0 := by omega
  refine BitVec.eq_of_getLsbD_eq fun j hj => ?_
  rw [BitVec.getLsbD_and]
  simp only [BitVec.getLsbD_ofNat, hj, decide_true, Bool.true_and]
  by_cases h8 : j < 8
  · have hm : Nat.testBit 4278190335 j = true := by interval_cases j <;> decide
    have hb := Nat.testBit_mod_two_pow (arg * 65536 + len * 256 + op) 8 j
    rw [show (2 : Nat) ^ 8 = 256 by rfl, hlow] at hb
    rw [hm, hb, Bool.and_true]; simp [h8]
  · have hop : op.testBit j = false :=
      Nat.testBit_lt_two_pow (lt_of_lt_of_le (show op < 2 ^ 8 by omega) (Nat.pow_le_pow_right (by omega) (by omega)))
    by_cases h24 : j < 24
    · have hm : Nat.testBit 4278190335 j = false := by interval_cases j <;> decide
      rw [hm, Bool.and_false, hop]
    · have := Nat.testBit_lt_two_pow (lt_of_lt_of_le
        (show arg * 65536 + len * 256 + op < 2 ^ 24 by omega) (Nat.pow_le_pow_right (by omega) (by omega : 24 ≤ j)))
      rw [this, hop]; rfl

/-- The word of the operation, if it is well formed, matches its row of the opcode table. -/
def TableRow.Statement (i : Instr) : Prop :=
  i.wellFormed = true → encode i &&& 0xFF0000FF#32 = BitVec.ofNat 32 i.opcode

theorem TableRow.pcd (m : Nat) : TableRow.Statement (.pcd m) := fun h =>
  ctrlWord_masked (op := 1) (len := m) (arg := 0) (by decide) (by simpa [Instr.wellFormed] using h) (by decide)

theorem TableRow.pcc (n : Nat) : TableRow.Statement (.pcc n) := fun h =>
  ctrlWord_masked (op := 2) (len := n) (arg := 0) (by decide) (by simpa [Instr.wellFormed] using h) (by decide)

theorem TableRow.pos (r : Nat) : TableRow.Statement (.pos r) := fun h =>
  ctrlWord_masked (op := 3) (len := 0) (arg := r) (by decide) (by decide) (by simpa [Instr.wellFormed] using h)

theorem TableRow.plc (m r : Nat) : TableRow.Statement (.plc m r) := fun h => by
  have h : m < 256 ∧ r < 256 := by simpa [Instr.wellFormed] using h
  exact ctrlWord_masked (op := 4) (len := m) (arg := r) (by decide) h.1 h.2

theorem TableRow.par (n r : Nat) : TableRow.Statement (.par n r) := fun h => by
  have h : n < 256 ∧ r < 256 := by simpa [Instr.wellFormed] using h
  exact ctrlWord_masked (op := 5) (len := n) (arg := r) (by decide) h.1 h.2

theorem TableRow.enc (m : Nat) : TableRow.Statement (.enc m) := fun h =>
  ctrlWord_masked (op := 6) (len := m) (arg := 0) (by decide) (by simpa [Instr.wellFormed] using h) (by decide)

theorem TableRow.syn (n : Nat) : TableRow.Statement (.syn n) := fun h =>
  ctrlWord_masked (op := 7) (len := n) (arg := 0) (by decide) (by simpa [Instr.wellFormed] using h) (by decide)

theorem TableRow.loc (n s : Nat) : TableRow.Statement (.loc n s) := fun h => by
  have h : n < 256 ∧ s < 256 := by simpa [Instr.wellFormed] using h
  exact ctrlWord_masked (op := 8) (len := n) (arg := s) (by decide) h.1 h.2

theorem TableRow.dec (n : Nat) : TableRow.Statement (.dec n) := fun h =>
  ctrlWord_masked (op := 9) (len := n) (arg := 0) (by decide) (by simpa [Instr.wellFormed] using h) (by decide)

end Sys2Proof.Laws
end

