-- ==== Sys2Proof/Tests/Slice0.lean ====
section
/-!
SUPPORT. Tests. The expected values are the spec's: 95_test_vectors.md (the table is named), the examples of the operation
rules, or words written out bit by bit from 30_encoding.md R71 and R75. The theorems test_witness_… give, for each
statement with hypotheses, values that meet them, at the ends of their ranges.
-/

namespace Sys2Proof.Tests

open Sys2Proof.Machine

/-! ### Well-formedness: each check refuses an operand that does not fit its field (30_encoding.md R71) -/

theorem test_wellFormed_refuses_first_operand :
    (Instr.pcd 256).wellFormed = false ∧ (Instr.pcc 256).wellFormed = false ∧ (Instr.pos 256).wellFormed = false ∧
    (Instr.plc 256 4).wellFormed = false ∧ (Instr.par 256 4).wellFormed = false ∧ (Instr.enc 256).wellFormed = false ∧
    (Instr.syn 256).wellFormed = false ∧ (Instr.loc 256 1).wellFormed = false ∧ (Instr.dec 256).wellFormed = false := by
  decide

theorem test_wellFormed_refuses_second_operand :
    (Instr.plc 8 256).wellFormed = false ∧ (Instr.par 8 256).wellFormed = false ∧
    (Instr.loc 8 256).wellFormed = false := by decide

theorem test_wellFormed_admits_ends :
    (Instr.pcd 0).wellFormed = true ∧ (Instr.pcc 255).wellFormed = true ∧ (Instr.pos 255).wellFormed = true ∧
    (Instr.plc 255 255).wellFormed = true ∧ (Instr.par 0 255).wellFormed = true ∧ (Instr.enc 255).wellFormed = true ∧
    (Instr.syn 255).wellFormed = true ∧ (Instr.loc 255 255).wellFormed = true ∧ (Instr.dec 255).wellFormed = true := by
  decide

/-! ### Decoding: words written out, RSV1 ARG LEN RSV0 OP -/

theorem test_decode_pcd : decode 0b00000000_00000000_11111000_0000_0001#32 = .ok (.pcd 248) := by decide
theorem test_decode_pcc : decode 0b00000000_10101010_10000000_0000_0010#32 = .ok (.pcc 128) := by decide
theorem test_decode_pos : decode 0b00000000_00000111_11111111_0000_0011#32 = .ok (.pos 7) := by decide
theorem test_decode_plc : decode 0b00000000_00000101_00000001_0000_0100#32 = .ok (.plc 1 5) := by decide
theorem test_decode_par : decode 0b00000000_00000010_00001100_0000_0101#32 = .ok (.par 12 2) := by decide
theorem test_decode_enc : decode 0b00000000_11111111_00000111_0000_0110#32 = .ok (.enc 7) := by decide
theorem test_decode_syn : decode 0b00000000_00000000_00001111_0000_0111#32 = .ok (.syn 15) := by decide
theorem test_decode_loc : decode 0b00000000_00001101_00001100_0000_1000#32 = .ok (.loc 12 13) := by decide
theorem test_decode_dec : decode 0b00000000_10000000_11111111_0000_1001#32 = .ok (.dec 255) := by decide

/-- Table L2-10. -/
theorem test_decode_illegal :
    decode 0x00000000#32 = .error .noSuchOp ∧ decode 0x00FFFF0A#32 = .error .noSuchOp ∧
    decode 0x0000000F#32 = .error .noSuchOp ∧ decode 0x00000010#32 = .error .reservedNonzero ∧
    decode 0x000008F6#32 = .error .reservedNonzero ∧ decode 0x80000001#32 = .error .reservedNonzero := by decide

theorem test_decodeTableWord : decodeTableWord 32 0x00000806 = some (.enc 8) ∧ decodeTableWord 32 0x0A = none := by
  decide

/-! ### One step each -/

/-- The state after reset with these values on the ports and an undisturbed request to come. -/
def onPorts (ctrl : Word) (din : BitVec 255) : State :=
  { State.reset with ctrl := ctrl, din := din, host := [.request .undisturbed] }

/-- RESP0, RESP1, DOUT and COUT after a step. -/
def answer (s : State) : Option (Nat × Nat × Nat × Nat) :=
  match step s with
  | .next t => some (t.out.resp0.toNat, t.out.resp1.toNat, t.out.dout.toNat, t.out.cout.toNat)
  | _ => none

/-- Table L2-1: the largest count of eight bits and the first of nine. -/
theorem test_pcd : answer (onPorts 0x0000F701 0) = some (0x00080023, 0, 0, 0) ∧
    answer (onPorts 0x0000F801 0) = some (0x00090023, 0, 0, 0) := by decide +kernel

/-- Table L2-2. -/
theorem test_pcc : answer (onPorts 0x00007F02 0) = some (0x00070023, 0, 0, 0) ∧
    answer (onPorts 0x00008002 0) = some (0x00080023, 0, 0, 0) := by decide +kernel

/-- Table L2-3: the example `11010001`, and r over R_MAX. -/
theorem test_pos : answer (onPorts 0x00040003 0) = some (0x00040823, 0, 0x8B, 0) ∧
    answer (onPorts 0x00090003 0) = some (0x00000027, 0, 0, 0) := by decide +kernel

/-- Table L2-4: `000010000001`, and `001001` with a spare slot. -/
theorem test_plc : answer (onPorts 0x00040804 0x82) = some (0x00040C23, 0, 0x810, 0) ∧
    answer (onPorts 0x00030304 0x5) = some (0x00030623, 0, 0x24, 0) := by decide +kernel

/-- Table L2-4: one slot too many. -/
theorem test_plc_too_long : answer (onPorts 0x0008F804 0) = some (0x00000027, 0, 0, 0) := by decide +kernel

/-- Table L2-5. -/
theorem test_par : answer (onPorts 0x00040C05 0x810) = some (0x00040023, 0x00000900, 0, 0) ∧
    answer (onPorts 0x00040405 0xF) = some (0x00040023, 0x00000400, 0, 0) := by decide +kernel

/-- Table L2-6: `100010010001` from `01000001`, and a message one bit too long. -/
theorem test_enc : answer (onPorts 0x00000806 0x82) = some (0x00040C23, 0x00000900, 0x891, 0) ∧
    answer (onPorts 0x0000F806 0) = some (0x00000027, 0, 0, 0) := by decide +kernel

/-- Table L2-11: DIN at and above LEN is ignored. -/
theorem test_enc_ignores_din : answer (onPorts 0x00000106 (BitVec.allOnes 255)) = some (0x00020323, 0x00000300, 7, 0) := by
  decide +kernel

/-- Table L2-7: `100010010000`, and the first power of two. -/
theorem test_syn : answer (onPorts 0x00000C07 0x091) = some (0x0C040823, 0x00000500, 0x02, 0) ∧
    answer (onPorts 0x00000407 0xF) = some (0x0000002B, 0, 0, 0) := by decide +kernel

/-- Table L2-8: s = n and s = n + 1. -/
theorem test_loc : answer (onPorts 0x000C0C08 0) = some (0x0C000021, 0x0000000B, 0, 0) ∧
    answer (onPorts 0x000D0C08 0) = some (0x0D000022, 0, 0, 0) := by decide +kernel

/-- Table L2-9: Scenario 3, and two flips beyond n. -/
theorem test_dec : answer (onPorts 0x00000B09 0x4D) = some (0x01040731, 0x00000400, 0x09, 0x4C) ∧
    answer (onPorts 0x00000C09 0x090) = some (0x0D040822, 0x00000500, 0x02, 0) := by decide +kernel

/-- Table L2-9: the last bit flipped, s = n = 15. -/
theorem test_dec_last_bit : answer (onPorts 0x00000F09 0x3FFF) = some (0x0F040B31, 0x0000000E, 0x7FF, 0x7FFF) := by
  decide +kernel

/-- Table L2-10: IllegalOp wins over the InvalidInput of ENC. -/
theorem test_illegalOp_first : answer (onPorts 0x01000006 0) = some (0x0000002F, 0, 0, 0) := by decide +kernel

/-- 10_state.md R45. -/
theorem test_reset : State.reset.out.resp0 = 0x00000003#32 ∧ State.reset.out.resp1 = 0#32 := by decide

/-- The host's two entries give the decoder's operation and run it (table L2-1, `PCD 8`). -/
theorem test_withFetchWord : answer (State.reset.withFetchWord 32 0x00000801) = some (0x00040023, 0, 0, 0) := by
  decide +kernel

/-- A state with the response of `DEC 10110010000` in its registers (table L2-9), the host about to do these things. -/
def afterDec (host : List (HostEvent 255)) : State :=
  { State.reset with
    ctrl := 0x00000B09, din := 0x4D, host := host
    out :=
      { rvalid := true, fault := .ok, status := .corrected, cvalid := true, dlen := 7, dout := 0x09, cout := 0x4C,
        rout := 4, pout := 4, syn := 1, idx := 0 } }

/-- Table L2-11: reset, reset in flight; and 10_state.md R39: a read and a write change nothing. -/
theorem test_host : answer (afterDec [.reset]) = some (3, 0, 0, 0) ∧
    answer (afterDec [.request .resetArrives]) = some (3, 0, 0, 0) ∧
    answer (afterDec [.write .dout 0]) = some (0x01040731, 0x00000400, 0x09, 0x4C) ∧
    answer (afterDec [.read .resp0]) = some (0x01040731, 0x00000400, 0x09, 0x4C) := by decide +kernel

/-- Table L2-9, Scenario 3: what the host reads from each output. -/
theorem test_host_reads :
    [OutReg.rvalid, .fault, .status, .cvalid, .dlen, .dout, .cout, .rout, .pout, .syn, .idx, .resp0, .resp1].map
      (fun reg => ((afterDec []).out.read reg).toNat) =
    [1, 0, 1, 1, 7, 0x09, 0x4C, 4, 4, 1, 0, 0x01040731, 0x00000400] := by decide +kernel

/-- 70_reset_and_hazards.md R238: the host drives the ports. -/
theorem test_host_drives :
    step (afterDec [.drive 0x00000C02 0x5]) = .next { afterDec [] with ctrl := 0x00000C02, din := 0x5 } := rfl

/-- 30_encoding.md R78, R79: a line read, assembled, and an illegal word printed. -/
theorem test_assembler :
    parseLine 255 ['D', 'E', 'C', ' ', '1', '0', '1', '1'] = some (.dec [true, false, true, true]) ∧
    parseLine 255 ['L', 'O', 'C', ' ', '1', '2', ',', ' ', '1'] = some (.loc 12 1) ∧
    parseLine 255 ['E', 'N', 'C', ' ', '"', '"'] = some (.enc []) ∧
    (disassemble 0x00FFFF0A (0#255)).text =
      ['.', 'w', 'o', 'r', 'd', ' ', '0', 'x', '0', '0', 'F', 'F', 'F', 'F', '0', 'A'] := by decide +kernel

/-- Log entry 17's case: N_MAX = 3, `DEC` with LEN = 4, printed with its fourth element 0 and refused when read back. -/
theorem test_disassemble_beyond_din :
    disassemble 0x00000409 (7#3) = .dec [true, true, true, false] ∧
    parseLine 3 (disassemble 0x00000409 (7#3)).text = none := by decide +kernel

/-- Log entry 18's case: a `.word` line assembles to its word, with DIN 0. -/
theorem test_assemble_word : assemble 255 (.word 0x01000806#32) = (0x01000806#32, 0#255) := by decide +kernel

/-! ### Witnesses -/

/-- The longest build and the shortest (00_scope.md R7, R8). -/
theorem test_limits : State.reset.cfg.nMax = 255 ∧ rMax 255 = 8 ∧ mMax 255 = 247 ∧ rMax 3 = 2 ∧ mMax 3 = 1 := by
  decide +kernel

theorem test_witness_RequestRunsDecodedOperation :
    (onPorts 0x00000801 0).host = [.request .undisturbed] ∧ decode (onPorts 0x00000801 0).ctrl = .ok (.pcd 8) := by
  decide

/-- Also for the Selects clauses of the nine statements of the operations: ignored fields hold ones. -/
theorem test_witness_TableRowsDecode :
    Selects 0x00FF0801#32 1 ∧ Selects 0x00FFFF02#32 2 ∧ Selects 0x0008FF03#32 3 ∧ Selects 0x0008F704#32 4 ∧
    Selects 0x0008FF05#32 5 ∧ Selects 0x00FFF706#32 6 ∧ Selects 0x00FFFF07#32 7 ∧ Selects 0x00FFFF08#32 8 ∧
    Selects 0x00FFFF09#32 9 := by unfold Selects; decide

theorem test_witness_IllegalWordsGetIllegalOp :
    (0x00000800#32).extractLsb' 0 4 = 0#4 ∧ 10#4 ≤ (0x0000000A#32).extractLsb' 0 4 ∧
    10#4 ≤ (0x0000000F#32).extractLsb' 0 4 ∧ (0x00000016#32).extractLsb' 4 4 ≠ 0#4 ∧
    (0x01000806#32).extractLsb' 24 8 ≠ 0#8 ∧ (onPorts 0x01000806 0).host = [.request .undisturbed] := by decide

theorem test_witness_DinBeyondOperandIgnored :
    ∀ j, j < (Instr.enc 8).dinLength → (0xFF82#255).getLsbD j = (onPorts 0x00000806 0x82).din.getLsbD j := by decide

theorem test_witness_PosAnswersPositionMask : 9 > rMax State.reset.cfg.nMax ∧ 8 ≤ rMax State.reset.cfg.nMax ∧
    0 ≤ rMax State.reset.cfg.nMax := by decide +kernel

theorem test_witness_PlcAnswersPlacedBuffer :
    (9 > rMax State.reset.cfg.nMax ∨ 1 + 9 > State.reset.cfg.nMax) ∧
    (8 > rMax State.reset.cfg.nMax ∨ 248 + 8 > State.reset.cfg.nMax) ∧
    (8 ≤ rMax State.reset.cfg.nMax ∧ 247 + 8 ≤ State.reset.cfg.nMax) ∧
    (0 ≤ rMax State.reset.cfg.nMax ∧ 255 + 0 ≤ State.reset.cfg.nMax) := by decide +kernel

theorem test_witness_ParAnswersGroupParities :
    (1 > State.reset.cfg.nMax ∨ 9 > rMax State.reset.cfg.nMax) ∧
    (256 > State.reset.cfg.nMax ∨ 0 > rMax State.reset.cfg.nMax) ∧
    (255 ≤ State.reset.cfg.nMax ∧ 8 ≤ rMax State.reset.cfg.nMax) := by decide +kernel

/-- Also for the three statements about an encoded message. -/
theorem test_witness_EncAnswersCodeword :
    (0 = 0 ∨ 0 > mMax State.reset.cfg.nMax) ∧ (248 = 0 ∨ 248 > mMax State.reset.cfg.nMax) ∧
    (1 ≤ 1 ∧ 1 ≤ mMax State.reset.cfg.nMax) ∧ (1 ≤ 247 ∧ 247 ≤ mMax State.reset.cfg.nMax) := by decide +kernel

/-- A number below 512 that is none of the powers of two from 4 to 256 is no power of two from 4 on. -/
theorem test_not_powerOfTwoLength {n : Nat} (h : n < 512) (h' : ∀ j < 9, 2 ≤ j → n ≠ 2 ^ j) : ¬PowerOfTwoLength n := by
  rintro ⟨j, hj, rfl⟩
  exact h' j ((Nat.pow_lt_pow_iff_right (by decide)).1 h) hj rfl

/-- Also for SyndromeIsXorOfOnePositions and DecIsSynThenLocThenFlip. -/
theorem test_witness_SynAnswersSyndrome :
    (2 ≤ 2 ∨ 2 > State.reset.cfg.nMax) ∧ (256 ≤ 2 ∨ 256 > State.reset.cfg.nMax) ∧
    (4 ≤ State.reset.cfg.nMax ∧ PowerOfTwoLength 4) ∧ (128 ≤ State.reset.cfg.nMax ∧ PowerOfTwoLength 128) ∧
    (3 ≤ 3 ∧ 3 ≤ State.reset.cfg.nMax ∧ ¬PowerOfTwoLength 3) ∧
    (3 ≤ 255 ∧ 255 ≤ State.reset.cfg.nMax ∧ ¬PowerOfTwoLength 255) :=
  ⟨by decide, by decide, ⟨by decide, 2, by decide, rfl⟩, ⟨by decide, 7, by decide, rfl⟩,
    ⟨by decide, by decide, test_not_powerOfTwoLength (by decide) (by decide)⟩,
    ⟨by decide, by decide, test_not_powerOfTwoLength (by decide) (by decide)⟩⟩

theorem test_witness_LocAnswersLocation :
    (0 = 0 ∨ 0 > State.reset.cfg.nMax) ∧ (256 = 0 ∨ 256 > State.reset.cfg.nMax) ∧
    (1 ≤ 12 ∧ 12 ≤ State.reset.cfg.nMax ∧ 1 ≤ 1 ∧ 12 ≤ 12 ∧ 12 < 13) := by decide

/-- The clauses on the syndrome y in DecAnswersDecodedMessage: the received words of tables L1-1, L1-2 and L2-9 whose
syndromes the spec gives as 0, 1, 12 = n and 13 > n. -/
theorem test_witness_DecAnswersDecodedMessage :
    answer (onPorts 0x00000C09 0x891) = some (0x00040820, 0x00000900, 0x82, 0) ∧
    answer (onPorts 0x00000C09 0x890) = some (0x01040831, 0x00000900, 0x82, 0x891) ∧
    answer (onPorts 0x00000C09 0x091) = some (0x0C040831, 0x0000050B, 0x82, 0x891) ∧
    answer (onPorts 0x00000C09 0x090) = some (0x0D040822, 0x00000500, 0x02, 0) := by decide +kernel

/-- The registers of a response. -/
def answerOf (i : Instr) (s : State) : Option (FaultCode × Status × Bool × Nat) :=
  match exec i s with
  | .next t => some (t.out.fault, t.out.status, t.out.cvalid, t.out.syn.toNat)
  | _ => none

/-- Both clauses of OperationsAssignOnlyTheirRegisters, ResultsFitTheirRegisters, InvalidInputExactlyWhen,
LengthMismatchExactlyWhen, StatusOnlyFromLocAndDec and CvalidExactlyAfterCorrection occur (tables L2-7, L2-9). -/
theorem test_witness_faults_and_results :
    answerOf (.dec 11) (onPorts 0x00000B09 0x4D) = some (.ok, .corrected, true, 1) ∧
    answerOf (.syn 2) (onPorts 0x00000207 0) = some (.invalidInput, .none, false, 0) ∧
    answerOf (.dec 8) (onPorts 0x00000809 0) = some (.lengthMismatch, .none, false, 0) ∧
    (Instr.dec 11).wellFormed = true ∧ decode (onPorts 0x0000000A 0).ctrl = .error .noSuchOp := by decide +kernel

theorem test_witness_FaultLeavesOnlyItsCode :
    (onPorts 0x00000409 0xF).host = [.request .undisturbed] ∧
    FaultCode.code .lengthMismatch ≠ 0#2 ∧ answer (onPorts 0x00000409 0xF) = some (0x0000002B, 0, 0, 0) := by
  decide +kernel

/-- 43_decoder.md R153: the lengths either side of the first powers of two. -/
theorem test_witness_LengthMismatchExactlyWhen :
    pcd (3 - pcc 3) = pcc 3 ∧ pcd (4 - pcc 4) ≠ pcc 4 ∧ pcd (5 - pcc 5) = pcc 5 ∧ pcd (128 - pcc 128) ≠ pcc 128 := by
  decide +kernel

theorem test_witness_RvalidSetByResponsesClearedByReset :
    (HostEvent.request (n := 255) .undisturbed).keepsObligation = true ∧
    (HostEvent.request (n := 255) .resetArrives).keepsObligation = true ∧
    (HostEvent.reset (n := 255)).keepsObligation = true ∧ (HostEvent.drive 0 (0#255)).keepsObligation = true ∧
    (HostEvent.read (n := 255) .resp0).keepsObligation = true ∧
    (HostEvent.write (n := 255) .dout 1).keepsObligation = true := by decide

theorem test_witness_host_premises :
    (afterDec [.reset]).host = [.reset] ∧ (afterDec [.request .resetArrives]).host = [.request .resetArrives] ∧
    (afterDec [.write .dout 0]).host = [.write .dout 0] ∧ (afterDec [.read .idx]).host = [.read .idx] ∧
    (afterDec [.drive 0xFFFFFFFF 7]).host = [.drive 0xFFFFFFFF 7] ∧ (afterDec []).host = [] := by decide

theorem test_witness_OnlyResponsesAndResetChangeOutputs :
    (∀ e rest, (afterDec []).host = e :: rest → e ≠ .reset ∧ ∀ f, e ≠ .request f) ∧
    ∀ e rest, (afterDec [.drive 0 0]).host = e :: rest → e ≠ .reset ∧ ∀ f, e ≠ .request f := by
  refine ⟨fun e rest h => (nomatch h), fun e rest h => ?_⟩
  cases h
  exact ⟨nofun, nofun⟩

theorem test_witness_ExactResponseAfterBrokenObligation :
    (Flight.portsChanged 0 (0#255)).keepsObligation = false ∧ (Flight.overlapped (n := 255)).keepsObligation = false ∧
    (afterDec [.request .overlapped, .request .undisturbed]).host = [.request .overlapped, .request .undisturbed] ∧
    (afterDec [.request (.portsChanged 0 0), .request .undisturbed]).host =
      [.request (.portsChanged 0 0), .request .undisturbed] := by decide

/-- A sound state whose registers hold a correction, and that steps. -/
theorem test_witness_StepKeepsSoundState :
    (afterDec [.request .undisturbed]).Sound ∧ ∃ t, step (afterDec [.request .undisturbed]) = .next t := by
  have high (w v c j : Nat) (h : v < 2 ^ c) (hw : c ≤ w) (hj : c ≤ j) : (BitVec.ofNat w v).getLsbD j = false := by
    rw [BitVec.getLsbD_ofNat, Nat.testBit_lt_two_pow (Nat.lt_of_lt_of_le h (Nat.pow_le_pow_right (by decide) hj)),
      Bool.and_false]
  refine ⟨⟨?_, by decide⟩, _, rfl⟩
  exact
    { dlen_le := by decide
      dout_above := fun j hj => high 255 9 7 j (by decide) (by decide) hj
      cvalid_corrected := fun _ => rfl
      cout_zero := fun h => nomatch h
      fault_image := fun k h => by cases k <;> cases h
      reset_image := fun h => nomatch h
      idx_corrected := fun _ => rfl
      idx_zero := fun h => absurd rfl h
      noError_syn := fun h => nomatch h
      uncorrectable_syn := fun h => nomatch h
      rout_le := by decide
      pout_above := fun j hj => high 8 4 4 j (by decide) (by decide) hj }

theorem test_witness_counts : 1 ≤ 1 ∧ 1 ≤ 247 ∧ 255 ≤ 255 ∧ 247 + pcd 247 ≤ Config.reference.nMax ∧
    ¬248 + pcd 248 ≤ Config.reference.nMax := by decide +kernel

/-- A message that is not empty, whose codeword fits a build of N_MAX = 3 and no smaller one (table L2-6, `ENC 1`). -/
theorem test_witness_EncoderResultProperties : 1 ≤ [true].length ∧ 0 < pcd [true].length ∧ 1 < pcd [true].length ∧
    encodeMessage [true] = .ok { codeword := [true, true, true], parity := [true, true] } ∧
    [true, true, true].length ≤ 3 := by decide +kernel

/-- The flips of the statements about flipped codewords: the first and the last bit of the codeword of `01000001`, whose
length is 12; the two syndromes 13 > 12 (indices 0 and 11) and 7 <= 12 (indices 10 and 11), table L2-9. -/
theorem test_witness_flips : 8 + pcd 8 = 12 ∧ 0 < 12 ∧ 11 < 12 ∧ 0 ≠ 11 ∧ (0 + 1) ^^^ (11 + 1) = 13 ∧
    (10 + 1) ^^^ (11 + 1) = 7 ∧
    0x891#255 ^^^ BitVec.twoPow 255 0 ^^^ BitVec.twoPow 255 11 = 0x090#255 := by decide +kernel

theorem test_witness_lines_fit : (AsmLine.plc [true] 255).fits 255 = true ∧ (AsmLine.enc []).fits 3 = true ∧
    (AsmLine.loc 255 255).fits 255 = true ∧ (AsmLine.word 0x01000806#32).fits 255 = true ∧
    (AsmLine.word 0x00000806#32).fits 255 = false ∧ (AsmLine.dec [true, true, true, true]).fits 3 = false := by
  decide +kernel

end Sys2Proof.Tests
end

section
/-!
SUPPORT. The capacity of a build (00_scope.md R8), and that no result overflows its register (00_scope.md R11,
10_state.md R26).
-/

namespace Sys2Proof.Machine

/-! ### The capacity of a build (00_scope.md R8) -/

/-- The shortest message takes two parity bits (40_layout.md R103). -/
theorem pcd_one : pcd 1 = 2 := pcd_eq_of (by decide) (by decide)

/-- Every legal build holds a message of one bit, whose codeword is three bits long. -/
theorem one_le_mMax (cfg : Config) : 1 ≤ mMax cfg.nMax := by
  rw [le_mMax_iff le_rfl, pcd_one]
  exact cfg.three_le

theorem mMax_codeword_fits (cfg : Config) : mMax cfg.nMax + pcd (mMax cfg.nMax) ≤ cfg.nMax :=
  (le_mMax_iff (one_le_mMax cfg)).1 le_rfl

theorem le_mMax_of_fits {nMax m : Nat} (h : m + pcd m ≤ nMax) : m ≤ mMax nMax := by
  rcases Nat.eq_zero_or_pos m with rfl | hm
  · exact Nat.zero_le _
  · exact (le_mMax_iff hm).2 h

/-- Settles O36: the bounds hold in every build by the laws of `pcc`, `pcd` and `mMax`; the table is evaluated. -/
theorem capacityOfEveryBuild : Obligations.CapacityOfEveryBuild := by
  refine ⟨fun cfg => ⟨rMax_le_eight cfg, mMax_codeword_fits cfg, fun m hm => le_mMax_of_fits hm⟩, ?_⟩
  decide

/-! ### The numbers fit eight bits (10_state.md R33, R36) -/

/-- No parity count of a message length that fits LEN is over PCD(255) = 9 (10_state.md R33). -/
theorem pcd_le_nine {m : Nat} (h : m < 256) : pcd m ≤ 9 := pcd_le_of (by omega)

theorem pcc_le_eight {n : Nat} (h : n < 256) : pcc n ≤ 8 := pcc_le_of (by omega)

theorem posMaskLength_le {r : Nat} (h : r ≤ 8) : posMaskLength r ≤ 128 := by
  rw [posMaskLength]
  split
  · omega
  · exact Nat.pow_le_pow_right (n := 2) (j := 7) (by decide) (by omega)

/-- A syndrome has no bit from `r` on, so it is below 2^r (43_decoder.md R154). -/
theorem IsSyndrome.lt_two_pow {c d e : Bits} {r y : Nat} (h : IsSyndrome c r d e y) : y < 2 ^ r :=
  Nat.lt_pow_two_of_testBit y fun k hk => by rw [h.mismatch k, decide_eq_false (by omega), Bool.false_and]

/-- The locator's index; 0 where it locates nothing (43_decoder.md R156). -/
theorem locate_index (n y : Nat) : (locate n y).2.getD 0 = if 1 ≤ y ∧ y ≤ n then y - 1 else 0 := by
  rcases Nat.eq_zero_or_pos y with rfl | h0
  · simp [locate]
  · by_cases h1 : y ≤ n <;> simp [locate, Nat.pos_iff_ne_zero.1 h0, h1]

/-- The locator's index is below its syndrome, so it fits a register that the syndrome fits. -/
theorem toByte_locate_index_toNat {n y : Nat} (h : y < 256) :
    (toByte ((locate n y).2.getD 0)).toNat = if 1 ≤ y ∧ y ≤ n then y - 1 else 0 := by
  rw [locate_index, toByte_toNat]
  split <;> omega

/-! ### What each operation's integer registers hold when it answers without fault -/

/-- The outcome is a response of `s`, and it has a fault or `P` holds of it. -/
def FaultsOr (s : State) (e : Host.Outcome State Fault Refusal) (P : Outputs s.cfg.nMax → Prop) : Prop :=
  ∃ o, e = .next (s.withOut o) ∧ (o.fault = .ok → P o)

theorem faultsOr_raiseFault (s : State) (k : FaultKind) (P : Outputs s.cfg.nMax → Prop) :
    FaultsOr s (raiseFault k s) P := ⟨_, raiseFault_eq k s, fun h => absurd h k.toCode_ne_ok⟩

theorem faultsOr_respond {s : State} {o : Outputs s.cfg.nMax} {P : Outputs s.cfg.nMax → Prop} (h : P o) :
    FaultsOr s (respond s o) P := ⟨o, respond_eq s o, fun _ => h⟩

section

variable {s : State}

theorem execPcd_fits {m : Nat} (hm : m < 256) :
    FaultsOr s (execPcd m s) fun o => LeastNat (fun q => 2 ^ q ≥ m + q + 1) o.rout.toNat := by
  have h := pcd_le_nine hm
  refine faultsOr_respond ?_
  rw [toByte_toNat (by omega)]
  exact pcd_spec m

theorem execPcc_fits {n : Nat} (hn : n < 256) :
    FaultsOr s (execPcc n s) fun o => LeastNat (fun q => 2 ^ q ≥ n + 1) o.rout.toNat := by
  have h := pcc_le_eight hn
  refine faultsOr_respond ?_
  rw [toByte_toNat (by omega)]
  exact pcc_spec n

theorem execPos_fits (r : Nat) :
    FaultsOr s (execPos r s) fun o => o.rout.toNat = r ∧ o.dlen.toNat = posMaskLength r := by
  rw [execPos]
  split
  · exact faultsOr_raiseFault ..
  · next h =>
    have hr : r ≤ 8 := (not_lt.1 h).trans (rMax_le_eight s.cfg)
    have hl := posMaskLength_le hr
    exact faultsOr_respond ⟨toByte_toNat (by omega), toByte_toNat (by omega)⟩

theorem execPlc_fits (m r : Nat) :
    FaultsOr s (execPlc m r s) fun o => o.dlen.toNat = m + r ∧ o.rout.toNat = r := by
  rw [execPlc]
  split
  · exact faultsOr_raiseFault ..
  · have hn := s.cfg.le_255
    exact faultsOr_respond ⟨toByte_toNat (by omega), toByte_toNat (by omega)⟩

theorem execPar_fits (n : Nat) {r : Nat} (hr : r < 256) :
    FaultsOr s (execPar n r s) fun o => o.rout.toNat = r := by
  rw [execPar]
  split
  · exact faultsOr_raiseFault ..
  · exact faultsOr_respond (toByte_toNat hr)

theorem execEnc_fits (m : Nat) :
    FaultsOr s (execEnc m s) fun o =>
      LeastNat (fun q => 2 ^ q ≥ m + q + 1) o.rout.toNat ∧ o.dlen.toNat = m + o.rout.toNat := by
  by_cases h : m = 0 ∨ m > mMax s.cfg.nMax
  · rw [execEnc, if_pos h]
    exact faultsOr_raiseFault ..
  · have hm : 1 ≤ m ∧ m ≤ mMax s.cfg.nMax := by omega
    have hfit := (le_mMax_iff hm.1).1 hm.2
    have hn := s.cfg.le_255
    refine ⟨_, execEnc_of_accepted hm.1 hm.2, fun _ => ?_⟩
    show LeastNat _ (toByte (pcd m)).toNat ∧ (toByte (m + pcd m)).toNat = m + (toByte (pcd m)).toNat
    rw [toByte_toNat (v := pcd m) (by omega), toByte_toNat (by omega)]
    exact ⟨pcd_spec m, rfl⟩

/-- The syndrome generator's integers on DIN, each read from the register that SYN and DEC put it in: none is reduced to
eight bits, since n is at most 255, r at most 8 and the syndrome below 2^r. -/
theorem syndrome_fits {n : Nat} {y : SyndromeResult} (h : syndrome s.cfg.nMax (s.operandBits n) = .ok y) :
    (toByte y.r).toNat = y.r ∧ (toByte (n - y.r)).toNat = n - y.r ∧ y.r ≤ n ∧ y.syndrome < 256 ∧
    IsSyndrome (portBits s.din n) y.r y.data y.expected y.syndrome := by
  obtain ⟨hc, hy⟩ := syndrome_isSyndrome h
  obtain ⟨hr, -, hn, -, -⟩ := checkLength_ok hc
  rw [operandBits_length] at hr hn
  have hmax := s.cfg.le_255
  have hr8 : y.r ≤ 8 := hr ▸ pcc_le_eight (by omega)
  have hrn : y.r ≤ n := hr ▸ pcc_le_self n
  have hs : y.syndrome < 2 ^ 8 := hy.lt_two_pow.trans_le (Nat.pow_le_pow_right (by decide) hr8)
  exact ⟨toByte_toNat (by omega), toByte_toNat (by omega), hrn, hs, hy⟩

/-- What SYN and DEC both put in ROUT, DLEN and SYN (43_decoder.md R158, R160). -/
def ShowsSyndrome (s : State) (n : Nat) (o : Outputs s.cfg.nMax) : Prop :=
  LeastNat (fun q => 2 ^ q ≥ n + 1) o.rout.toNat ∧ o.dlen.toNat + o.rout.toNat = n ∧
  o.syn.toNat < 2 ^ o.rout.toNat ∧ ∃ d e : Bits, IsSyndrome (portBits s.din n) o.rout.toNat d e o.syn.toNat

theorem showsSyndrome_of {n : Nat} {y : SyndromeResult} {o : Outputs s.cfg.nMax}
    (h : syndrome s.cfg.nMax (s.operandBits n) = .ok y)
    (hr : o.rout = toByte y.r) (hd : o.dlen = toByte (n - y.r)) (hs : o.syn = toByte y.syndrome) :
    ShowsSyndrome s n o := by
  obtain ⟨er, ed, hrn, hy, hsyn⟩ := syndrome_fits h
  have hcount := hsyn.count
  rw [← operandBits_eq, operandBits_length] at hcount
  rw [ShowsSyndrome, hr, hd, hs, er, ed, toByte_toNat hy]
  exact ⟨hcount, Nat.sub_add_cancel hrn, hsyn.lt_two_pow, _, _, hsyn⟩

theorem execSyn_fits (n : Nat) : FaultsOr s (execSyn n s) (ShowsSyndrome s n) := by
  cases h : syndrome s.cfg.nMax (s.operandBits n) with
  | error k =>
    rw [execSyn, h]
    exact faultsOr_raiseFault ..
  | ok y => exact ⟨_, execSyn_of_ok h, fun _ => showsSyndrome_of h rfl rfl rfl⟩

theorem execLoc_fits (n : Nat) {y : Nat} (hy : y < 256) :
    FaultsOr s (execLoc n y s) fun o =>
      o.syn.toNat = y ∧ o.idx.toNat = if 1 ≤ y ∧ y ≤ n then y - 1 else 0 := by
  rw [execLoc]
  split
  · exact faultsOr_raiseFault ..
  · exact faultsOr_respond ⟨toByte_toNat hy, toByte_locate_index_toNat hy⟩

theorem execDec_fits (n : Nat) :
    FaultsOr s (execDec n s) fun o => ShowsSyndrome s n o ∧
      o.idx.toNat = if 1 ≤ o.syn.toNat ∧ o.syn.toNat ≤ n then o.syn.toNat - 1 else 0 := by
  cases h : syndrome s.cfg.nMax (s.operandBits n) with
  | error k =>
    simp only [execDec, h]
    exact faultsOr_raiseFault ..
  | ok y =>
    obtain ⟨-, -, -, hy, -⟩ := syndrome_fits h
    refine ⟨_, execDec_of_ok h (decodeCodeword_eq h), fun _ => ⟨showsSyndrome_of h rfl rfl rfl, ?_⟩⟩
    simp only [decResponse, toByte_toNat hy]
    exact toByte_locate_index_toNat hy

end

/-- Settles O17, one lemma for each operation: where it does not fault, its numbers are below 256. -/
theorem resultsFitTheirRegisters : Obligations.ResultsFitTheirRegisters := by
  intro i s hw
  cases i with
  | pcd m => exact execPcd_fits (of_decide_eq_true hw)
  | pcc n => exact execPcc_fits (of_decide_eq_true hw)
  | pos r => exact execPos_fits r
  | plc m r => exact execPlc_fits m r
  | par n r => exact execPar_fits n (of_decide_eq_true (Bool.and_eq_true_iff.1 hw).2)
  | enc m => exact execEnc_fits m
  | syn n => exact execSyn_fits n
  | loc n y => exact execLoc_fits n (of_decide_eq_true (Bool.and_eq_true_iff.1 hw).2)
  | dec n =>
    obtain ⟨o, ho, hfit⟩ := execDec_fits (s := s) n
    refine ⟨o, ho, fun hok => ?_⟩
    obtain ⟨⟨hr, hd, hlt, hsyn⟩, hidx⟩ := hfit hok
    exact ⟨hr, hd, hlt, hsyn, hidx⟩

end Sys2Proof.Machine
end

section
/-!
SUPPORT. What an operation answers, once for all nine (00_scope.md R13, R20; 10_state.md R40; 60_exceptions.md R205),
and what follows for the frame (R40), for DIN (R25), and for the flags STATUS (R27) and CVALID (R29).
-/

namespace Sys2Proof.Machine

/-! ### The locator and the decoder (43_decoder.md R156, R157) -/

/-- The three outcomes of the locator (43_decoder.md R156). -/
theorem locate_cases (n y : Nat) :
    (y = 0 ∧ locate n y = (.noError, none)) ∨
    (1 ≤ y ∧ y ≤ n ∧ locate n y = (.corrected, some (y - 1))) ∨
    (n < y ∧ locate n y = (.uncorrectable, none)) := by
  rcases Nat.eq_zero_or_pos y with h0 | h0
  · exact .inl ⟨h0, by rw [locate, if_pos h0]⟩
  · by_cases h : y ≤ n
    · exact .inr (.inl ⟨h0, h, by rw [locate, if_neg (by omega), if_pos h]⟩)
    · exact .inr (.inr ⟨by omega, by rw [locate, if_neg (by omega), if_neg h]⟩)

theorem locate_status_ne_none (n y : Nat) : (locate n y).1 ≠ .none := by
  rcases locate_cases n y with ⟨-, h⟩ | ⟨-, -, h⟩ | ⟨-, h⟩ <;> simp [h]

/-- `Decode` has the locator's status, and flips the located bit if there is one (43_decoder.md R157). -/
theorem decodeCodeword_located {nMax : Nat} {c : Bits} {y : SyndromeResult} {d : Decoded}
    (hy : syndrome nMax c = .ok y) (hd : decodeCodeword nMax c = .ok d) :
    d.status = (locate c.length y.syndrome).1 ∧
    d.corrected = (locate c.length y.syndrome).2.map (flipBit c) ∧
    (d.message = y.data ∨ ∃ i, d.message = extract (flipBit c i) y.r) := by
  rw [decodeCodeword_eq hy] at hd
  cases hd
  rcases locate_cases c.length y.syndrome with ⟨h0, h⟩ | ⟨h0, h1, h⟩ | ⟨h0, h⟩
  · rw [if_pos h0, h]
    exact ⟨rfl, rfl, .inl rfl⟩
  · rw [if_neg (by omega), if_pos h1, h]
    exact ⟨rfl, rfl, .inr ⟨_, rfl⟩⟩
  · rw [if_neg (by omega), if_neg (by omega), h]
    exact ⟨rfl, rfl, .inl rfl⟩

/-- CVALID goes with the status Corrected: a bit is located exactly then (10_state.md R29). -/
theorem locate_isSome_iff (n y : Nat) : (locate n y).2.isSome = true ↔ (locate n y).1 = .corrected := by
  rcases locate_cases n y with ⟨-, h⟩ | ⟨-, -, h⟩ | ⟨-, h⟩ <;> simp [h]

/-! ### The response of an operation -/

/-- The responses an operation can answer in a state: the fault response of some kind, or the registers of its rule,
with what the operation has checked of its operands. -/
inductive Answer (s : State) : Instr → Outputs s.cfg.nMax → Prop
  | fault (i : Instr) (k : FaultKind) : Answer s i (Outputs.faultResponse s.cfg.nMax k)
  | pcd (m : Nat) : Answer s (.pcd m) { Outputs.unassigned s.cfg.nMax with rout := toByte (pcd m) }
  | pcc (n : Nat) : Answer s (.pcc n) { Outputs.unassigned s.cfg.nMax with rout := toByte (pcc n) }
  | pos (r : Nat) (hr : r ≤ rMax s.cfg.nMax) : Answer s (.pos r)
      { Outputs.unassigned s.cfg.nMax with
        dout := toPort s.cfg.nMax (posMask r), dlen := toByte (posMaskLength r), rout := toByte r }
  | plc (m r : Nat) (hr : r ≤ rMax s.cfg.nMax) (hm : m + r ≤ s.cfg.nMax) : Answer s (.plc m r)
      { Outputs.unassigned s.cfg.nMax with
        dout := toPort s.cfg.nMax (place (s.operandBits m) r), dlen := toByte (m + r), rout := toByte r }
  | par (n r : Nat) (hr : r ≤ rMax s.cfg.nMax) : Answer s (.par n r)
      { Outputs.unassigned s.cfg.nMax with
        pout := toPout (parities (s.operandBits n) r), rout := toByte r }
  | enc (m : Nat) (hm : m + pcd m ≤ s.cfg.nMax) : Answer s (.enc m)
      { Outputs.unassigned s.cfg.nMax with
        dout := toPort s.cfg.nMax (encodeBits (s.operandBits m)).codeword, dlen := toByte (m + pcd m),
        pout := toPout (encodeBits (s.operandBits m)).parity, rout := toByte (pcd m) }
  | syn (n : Nat) (y : SyndromeResult) (hy : syndrome s.cfg.nMax (s.operandBits n) = .ok y) : Answer s (.syn n)
      { Outputs.unassigned s.cfg.nMax with
        dout := toPort s.cfg.nMax y.data, dlen := toByte (n - y.r), pout := toPout y.expected, rout := toByte y.r,
        syn := toByte y.syndrome }
  | loc (n y : Nat) : Answer s (.loc n y)
      { Outputs.unassigned s.cfg.nMax with
        status := (locate n y).1, idx := toByte ((locate n y).2.getD 0), syn := toByte y }
  | dec (n : Nat) (y : SyndromeResult) (d : Decoded) (hy : syndrome s.cfg.nMax (s.operandBits n) = .ok y)
      (hd : decodeCodeword s.cfg.nMax (s.operandBits n) = .ok d) :
      Answer s (.dec n) (decResponse s.cfg.nMax n y (locate n y.syndrome).2 d)

theorem execSyn_of_syndrome_error {s : State} {n : Nat} {k : FaultKind}
    (h : syndrome s.cfg.nMax (s.operandBits n) = .error k) : execSyn n s = raiseFault k s := by
  rw [execSyn, h]

theorem execDec_of_syndrome_error {s : State} {n : Nat} {k : FaultKind}
    (h : syndrome s.cfg.nMax (s.operandBits n) = .error k) : execDec n s = raiseFault k s := by
  simp only [execDec, h]

/-- The response to the operation is `o` in `s` and in every state of its build with the same operand on DIN (R20). -/
def ResponseTo (s : State) (i : Instr) (o : Outputs s.cfg.nMax) : Prop :=
  ∀ (c : Word) (d : BitVec s.cfg.nMax) (o' : Outputs s.cfg.nMax) (h' : List (HostEvent s.cfg.nMax)) (k' : Nat),
    fromPort d i.dinLength = s.operandBits i.dinLength →
    exec i ⟨s.cfg, c, d, o', h', k'⟩ = .next ⟨s.cfg, c, d, o, h', k'⟩

theorem ResponseTo.exec_eq {s : State} {i : Instr} {o : Outputs s.cfg.nMax} (h : ResponseTo s i o) :
    exec i s = .next (s.withOut o) :=
  h s.ctrl s.din s.out s.host s.draws rfl

/-- What an operation answers is one of its answers, and depends on the build and the operand alone. -/
theorem exec_answers (i : Instr) (s : State) : ∃ o, Answer s i o ∧ ResponseTo s i o := by
  cases i with
  | pcd m => exact ⟨_, .pcd m, fun _ _ _ _ _ _ => rfl⟩
  | pcc n => exact ⟨_, .pcc n, fun _ _ _ _ _ _ => rfl⟩
  | pos r =>
    by_cases h : r > rMax s.cfg.nMax
    · exact ⟨_, .fault _ .invalidInput, fun _ _ _ _ _ _ => if_pos h⟩
    · exact ⟨_, .pos r (by omega), fun _ _ _ _ _ _ => if_neg h⟩
  | plc m r =>
    by_cases h : r > rMax s.cfg.nMax ∨ m + r > s.cfg.nMax
    · exact ⟨_, .fault _ .invalidInput, fun _ _ _ _ _ _ => if_pos h⟩
    · exact ⟨_, .plc m r (by omega) (by omega), fun _ _ _ _ _ ho => ho ▸ if_neg h⟩
  | par n r =>
    by_cases h : n > s.cfg.nMax ∨ r > rMax s.cfg.nMax
    · exact ⟨_, .fault _ .invalidInput, fun _ _ _ _ _ _ => if_pos h⟩
    · exact ⟨_, .par n r (by omega), fun _ _ _ _ _ ho => ho ▸ if_neg h⟩
  | enc m =>
    by_cases h : m = 0 ∨ m > mMax s.cfg.nMax
    · exact ⟨_, .fault _ .invalidInput, fun _ _ _ _ _ _ => if_pos h⟩
    · have h1 : 1 ≤ m := by omega
      have h2 : m ≤ mMax s.cfg.nMax := by omega
      exact ⟨_, .enc m ((le_mMax_iff h1).1 h2), fun _ _ _ _ _ ho => ho ▸ execEnc_of_accepted h1 h2⟩
  | syn n =>
    cases hy : syndrome s.cfg.nMax (s.operandBits n) with
    | error k => exact ⟨_, .fault _ k, fun _ _ _ _ _ ho => execSyn_of_syndrome_error ((congrArg _ ho).trans hy)⟩
    | ok y => exact ⟨_, .syn n y hy, fun _ _ _ _ _ ho => execSyn_of_ok ((congrArg _ ho).trans hy)⟩
  | loc n y =>
    by_cases h : n = 0 ∨ n > s.cfg.nMax
    · exact ⟨_, .fault _ .invalidInput, fun _ _ _ _ _ _ => if_pos h⟩
    · exact ⟨_, .loc n y, fun _ _ _ _ _ _ => if_neg h⟩
  | dec n =>
    cases hy : syndrome s.cfg.nMax (s.operandBits n) with
    | error k => exact ⟨_, .fault _ k, fun _ _ _ _ _ ho => execDec_of_syndrome_error ((congrArg _ ho).trans hy)⟩
    | ok y =>
      have hd := decodeCodeword_eq hy
      exact ⟨_, .dec n y _ hy hd, fun _ _ _ _ _ ho =>
        execDec_of_ok ((congrArg _ ho).trans hy) ((congrArg _ ho).trans hd)⟩

/-- Settles O6: with DIN equal below the operand's length, the operand is the same, and with it the response. -/
theorem dinBeyondOperandIgnored : Obligations.DinBeyondOperandIgnored := by
  intro i s d hd
  obtain ⟨o, -, ho⟩ := exec_answers i s
  have hop : fromPort d i.dinLength = s.operandBits i.dinLength :=
    List.map_congr_left fun j hj => hd j (List.mem_range.1 hj)
  exact ⟨o, ho.exec_eq, ho s.ctrl d s.out s.host s.draws hop⟩

/-- Settles O16: each answer is the unassigned response with the registers of its rule. -/
theorem operationsAssignOnlyTheirRegisters : Obligations.OperationsAssignOnlyTheirRegisters := by
  intro i s
  obtain ⟨o, ha, ho⟩ := exec_answers i s
  refine ⟨o, ho.exec_eq, ?_⟩
  cases ha with
  | fault i k => exact ⟨rfl, fun _ => rfl, fun hok => absurd hok k.toCode_ne_ok⟩
  | _ => exact ⟨rfl, fun hne => absurd rfl hne, fun _ => rfl⟩

/-! ### The request -/

theorem runRequest_of_ok {s : State} {i : Instr} (h : decode s.ctrl = .ok i) : runRequest s = exec i s := by
  rw [runRequest, h]

theorem runRequest_of_error {s : State} {e : DecodeReject} (h : decode s.ctrl = .error e) :
    runRequest s = .next (s.withOut (Outputs.faultResponse s.cfg.nMax .illegalOp)) := by
  rw [runRequest, h]; rfl

/-- Settles O30: an operation's response by `exec_answers`; a request's is that of the operation CTRL names, or
IllegalOp. -/
theorem responseDependsOnRequestAlone : Obligations.ResponseDependsOnRequestAlone := by
  intro s o' h' k'
  have hexec : ∀ (i : Instr) (c : Word), ∃ o, exec i s = .next (s.withOut o) ∧
      exec i ⟨s.cfg, c, s.din, o', h', k'⟩ = .next ⟨s.cfg, c, s.din, o, h', k'⟩ := fun i c => by
    obtain ⟨o, -, ho⟩ := exec_answers i s
    exact ⟨o, ho.exec_eq, ho c s.din o' h' k' rfl⟩
  refine ⟨hexec, ?_⟩
  cases hd : decode s.ctrl with
  | ok i =>
    obtain ⟨o, ho, ho'⟩ := hexec i s.ctrl
    exact ⟨o, (runRequest_of_ok hd).trans ho,
      (runRequest_of_ok (s := ⟨s.cfg, s.ctrl, s.din, o', h', k'⟩) hd).trans ho'⟩
  | error e => exact ⟨_, runRequest_of_error hd, runRequest_of_error hd⟩

/-! ### The flags STATUS and CVALID (10_state.md R27, R29) -/

theorem Answer.status_ne_none_iff {s : State} {i : Instr} {o : Outputs s.cfg.nMax} (h : Answer s i o) :
    o.status ≠ .none ↔ ((∃ n y, i = .loc n y) ∨ ∃ n, i = .dec n) ∧ o.fault = .ok := by
  cases h with
  | fault i k => exact ⟨fun hne => absurd rfl hne, fun ⟨_, hok⟩ => absurd hok k.toCode_ne_ok⟩
  | loc n y => exact ⟨fun _ => ⟨.inl ⟨n, y, rfl⟩, rfl⟩, fun _ => locate_status_ne_none n y⟩
  | dec n y d hy hd =>
    refine ⟨fun _ => ⟨.inr ⟨n, rfl⟩, rfl⟩, fun _ => ?_⟩
    rw [decResponse, (decodeCodeword_located hy hd).1]
    exact locate_status_ne_none _ _
  | _ => simp [Outputs.unassigned]

/-- Settles O21: LOC and DEC write the locator's status, which is never None; no other answer writes STATUS. -/
theorem statusOnlyFromLocAndDec : Obligations.StatusOnlyFromLocAndDec := by
  refine ⟨rfl, rfl, rfl, rfl, fun i s => ?_, fun s e he => ⟨_, runRequest_of_error he, rfl⟩⟩
  obtain ⟨o, ha, ho⟩ := exec_answers i s
  exact ⟨o, ho.exec_eq, ha.status_ne_none_iff⟩

theorem Answer.cvalid_iff {s : State} {i : Instr} {o : Outputs s.cfg.nMax} (h : Answer s i o) :
    o.cvalid = true ↔ (∃ n, i = .dec n) ∧ o.fault = .ok ∧ o.status = .corrected := by
  cases h with
  | fault i k => exact ⟨nofun, fun ⟨_, hok, _⟩ => absurd hok k.toCode_ne_ok⟩
  | dec n y d hy hd =>
    obtain ⟨hst, hc, -⟩ := decodeCodeword_located hy hd
    have hiff : d.corrected.isSome = true ↔ d.status = .corrected := by
      rw [hst, hc, Option.isSome_map]
      exact locate_isSome_iff _ _
    exact ⟨fun hv => ⟨⟨n, rfl⟩, rfl, hiff.1 hv⟩, fun ⟨_, _, hs⟩ => hiff.2 hs⟩
  | _ => simp [Outputs.unassigned]

/-- COUT with CVALID: the received word with the bit at IDX flipped (10_state.md R29, 43_decoder.md R157). -/
theorem Answer.cout_of_cvalid {s : State} {n : Nat} {o : Outputs s.cfg.nMax} (h : Answer s (.dec n) o)
    (hv : o.cvalid = true) (j : Nat) :
    o.cout.getLsbD j = (decide (j < n) && (s.din.getLsbD j ^^ decide (j = o.idx.toNat))) := by
  cases h with
  | fault i k => cases hv
  | dec n y d hy hd =>
    obtain ⟨-, hc, -⟩ := decodeCodeword_located hy hd
    obtain ⟨-, -, -, hlt, -⟩ := syndrome_fits hy
    obtain ⟨-, -, hn, -, -⟩ := checkLength_ok (syndrome_isSyndrome hy).1
    rw [operandBits_length] at hc hn
    replace hv : d.corrected.isSome = true := hv
    rw [hc] at hv
    rcases locate_cases n y.syndrome with ⟨-, h⟩ | ⟨h1, h2, h⟩ | ⟨-, h⟩
    · simp [h] at hv
    · simp only [decResponse, hc, h, Option.map_some, Option.getD_some, getLsbD_toPort, toByte_toNat
        (show y.syndrome - 1 < 256 by omega)]
      rw [bitAt_flipBit (by rw [operandBits_length]; omega), bitAt_operandBits]
      by_cases hj : j < n
      · simp [hj, hj.trans_le hn]
      · simp [hj, show j ≠ y.syndrome - 1 by omega]
    · simp [h] at hv

/-- Settles O22: DEC sets CVALID exactly when the locator names a bit, and COUT is then the received word with it
flipped. -/
theorem cvalidExactlyAfterCorrection : Obligations.CvalidExactlyAfterCorrection := by
  refine ⟨fun i s => ?_, fun s e he => ⟨_, runRequest_of_error he, rfl⟩⟩
  obtain ⟨o, ha, ho⟩ := exec_answers i s
  refine ⟨o, ho.exec_eq, ha.cvalid_iff, ?_⟩
  rintro n rfl hv
  exact ha.cout_of_cvalid hv

end Sys2Proof.Machine
end

section
/-!
SUPPORT. What the host's interactions do (70_reset_and_hazards.md R238), that the block never stops (10_state.md R40),
and who writes RVALID (R30).
-/

namespace Sys2Proof.Machine

/-! ### The step of each interaction -/

theorem step_undisturbed {s : State} {rest : List (HostEvent s.cfg.nMax)} (h : s.host = .request .undisturbed :: rest) :
    step s = runRequest (s.withHost rest) := step_cons h

/-- Settles O1: the step of an undisturbed request runs the control word, which decodes. -/
theorem requestRunsDecodedOperation : Obligations.RequestRunsDecodedOperation := fun _ _ _ hh hd =>
  (step_undisturbed hh).trans (runRequest_of_ok hd)

/-- Settles O27: the meaning of a read and of a write is the state the step hands it. -/
theorem hostReadsAndWritesChangeNothing : Obligations.HostReadsAndWritesChangeNothing := fun _ _ _ _ =>
  ⟨fun h => step_cons h, fun h => step_cons h⟩

/-- Settles O47: the drive's step is its meaning on the state without it; the idle step is `step_idle`. -/
theorem driveSetsPortsAndIdleBlockHolds : Obligations.DriveSetsPortsAndIdleBlockHolds := fun _ =>
  ⟨fun _ _ _ h => step_cons h, step_idle⟩

/-! ### Every interaction is answered -/

/-- A request answers with a response: the fault response of some kind, or one without fault; either sets RVALID. -/
theorem runRequest_responds (s : State) :
    ∃ o, runRequest s = .next (s.withOut o) ∧ o.rvalid = true := by
  rcases runRequest_cases s with ⟨i, -, h⟩ | ⟨e, -, h⟩
  · obtain ⟨o, ho, hv, -⟩ := exec_responds i s
    exact ⟨o, h.trans ho, hv⟩
  · exact ⟨_, h, rfl⟩

/-- What an interaction that keeps R234 does: a response, reset, or an effect on the ports at most. -/
theorem interact_cases {s : State} {e : HostEvent s.cfg.nMax} (he : e.keepsObligation = true) :
    (e = .request .undisturbed ∧ interact s e = runRequest s) ∨
    ((e = .reset ∨ e = .request .resetArrives) ∧ interact s e = .next s.resetOutputs) ∨
    (e ≠ .reset ∧ (∀ f, e ≠ .request f) ∧ ∃ c d, interact s e = .next (s.drivePorts c d)) := by
  cases e with
  | drive c d => exact .inr (.inr ⟨nofun, nofun, c, d, rfl⟩)
  | read reg => exact .inr (.inr ⟨nofun, nofun, s.ctrl, s.din, rfl⟩)
  | write reg v => exact .inr (.inr ⟨nofun, nofun, s.ctrl, s.din, rfl⟩)
  | reset => exact .inr (.inl ⟨.inl rfl, rfl⟩)
  | request f =>
    cases f with
    | undisturbed => exact .inl ⟨rfl, rfl⟩
    | resetArrives => exact .inr (.inl ⟨.inr rfl, rfl⟩)
    | portsChanged c d => cases he
    | overlapped => cases he

theorem interact_next (s : State) (e : HostEvent s.cfg.nMax) : ∃ t, interact s e = .next t := by
  cases e with
  | request f =>
    cases f with
    | undisturbed =>
      obtain ⟨o, ho, -⟩ := runRequest_responds s
      exact ⟨_, ho⟩
    | _ => exact ⟨_, rfl⟩
  | _ => exact ⟨_, rfl⟩

/-- Settles O31: every interaction is answered, and with none left the block holds. -/
theorem blockNeverStops : Obligations.BlockNeverStops := by
  intro s
  cases h : s.host with
  | nil => exact ⟨s, step_idle h⟩
  | cons e rest =>
    rw [step_cons h]
    exact interact_next (s.withHost rest) e

/-- Settles O23: the three kinds of interaction that keep R234 write RVALID 1, write it 0, and leave it. -/
theorem rvalidSetByResponsesClearedByReset : Obligations.RvalidSetByResponsesClearedByReset := by
  refine ⟨rfl, fun s hkeep => ?_⟩
  cases h : s.host with
  | nil => exact ⟨s, step_idle h, nofun, nofun, fun _ => rfl⟩
  | cons e rest =>
    rw [step_cons h]
    simp only [List.cons.injEq, exists_and_left, exists_eq', and_true, exists_or]
    rcases interact_cases (s := s.withHost rest) (hkeep e rest h) with
      ⟨rfl, hs⟩ | ⟨he, hs⟩ | ⟨hr, hq, c, d, hs⟩
    · obtain ⟨o, ho, hv⟩ := runRequest_responds (s.withHost rest)
      refine ⟨_, hs.trans ho, fun _ => hv, nofun, fun hno => ?_⟩
      exact ((hno _ rest ⟨rfl, rfl⟩).2 _ rfl).elim
    · refine ⟨_, hs, ?_, fun _ => rfl, fun hno => ?_⟩
      · rintro rfl
        exact he.elim nofun nofun
      · obtain ⟨hr, hq⟩ := hno e rest ⟨rfl, rfl⟩
        exact (he.elim hr (hq _)).elim
    · exact ⟨_, hs, fun he => (hq _ he).elim, fun he => (he.elim hr (hq _)).elim, fun _ => rfl⟩

end Sys2Proof.Machine
end

section
/-!
SUPPORT. What the host reads: the packed words RESP0 and RESP1 and the single registers (10_state.md R26, R37, R38).
-/

namespace Sys2Proof.Machine

/-- The fields of RESP0 (10_state.md R37). -/
theorem resp0_fields {n : Nat} (o : Outputs n) :
    o.resp0.extractLsb' 0 2 = o.status.code ∧ o.resp0.extractLsb' 2 2 = o.fault.code ∧
    o.resp0.getLsbD 4 = o.cvalid ∧ o.resp0.getLsbD 5 = o.rvalid ∧ o.resp0.extractLsb' 6 2 = 0#2 ∧
    o.resp0.extractLsb' 8 8 = o.dlen ∧ o.resp0.extractLsb' 16 8 = o.rout ∧ o.resp0.extractLsb' 24 8 = o.syn := by
  unfold Outputs.resp0
  refine ⟨?_, ?_, ?_, ?_, ?_, ?_, ?_, ?_⟩
  case refine_3 | refine_4 =>
    simp only [BitVec.getLsbD_append]
    simp
  all_goals
    simp (disch := decide) only [BitVec.extractLsb'_append_eq_of_le, BitVec.extractLsb'_append_eq_of_add_le]
    exact BitVec.extractLsb'_eq_self

/-- The fields of RESP1 (10_state.md R38). -/
theorem resp1_fields {n : Nat} (o : Outputs n) :
    o.resp1.extractLsb' 0 8 = o.idx ∧ o.resp1.extractLsb' 8 8 = o.pout ∧ o.resp1.extractLsb' 16 16 = 0#16 := by
  unfold Outputs.resp1
  refine ⟨?_, ?_, ?_⟩ <;>
    simp (disch := decide) only [BitVec.extractLsb'_append_eq_of_le, BitVec.extractLsb'_append_eq_of_add_le] <;>
    exact BitVec.extractLsb'_eq_self

/-- Settles O24: the packed words by their fields; a host read is by definition the register it names. -/
theorem packedWordsShowRegisters : Obligations.PackedWordsShowRegisters := by
  intro n o
  obtain ⟨hst, hf, hcv, hrv, h0, hdlen, hrout, hsyn⟩ := resp0_fields o
  obtain ⟨hidx, hpout, h0'⟩ := resp1_fields o
  exact ⟨hst, hf, hcv, hrv, h0, hdlen, hrout, hsyn, hidx, hpout, h0', rfl, rfl,
    BitVec.ofBool_eq_iff_eq (b' := true), rfl, rfl, BitVec.ofBool_eq_iff_eq (b' := true), rfl, rfl, rfl, rfl, rfl, rfl, rfl⟩

end Sys2Proof.Machine
end

section
/-!
SUPPORT. The invariant of the output registers (10_state.md R26 to R36): every response and reset establish it, and no
other step writes an output register.
-/

namespace Sys2Proof.Machine

/-! ### What the registers of a response say, in three parts -/

/-- DOUT and DLEN show one bit string that fits DOUT (10_state.md R31). -/
def Outputs.ShowsData {n : Nat} (o : Outputs n) : Prop :=
  ∃ b : Bits, b.length ≤ n ∧ o.dout = toPort n b ∧ o.dlen = toByte b.length

/-- ROUT is a parity count, and POUT a parity vector with no more elements (10_state.md R33, R34). -/
def Outputs.ShowsParity {n : Nat} (o : Outputs n) : Prop :=
  ∃ (r : Nat) (p : Bits), r ≤ 9 ∧ p.length ≤ r ∧ o.rout = toByte r ∧ o.pout = toPout p

/-- STATUS and IDX are the locator's for the syndrome in SYN, or None and 0 (10_state.md R27, R36). -/
def Outputs.ShowsStatus {n : Nat} (o : Outputs n) : Prop :=
  (o.status = .none ∧ o.idx = 0) ∨
  ∃ m y, y < 256 ∧ o.status = (locate m y).1 ∧ o.idx = toByte ((locate m y).2.getD 0) ∧ o.syn = toByte y

theorem Outputs.showsData_of_zero {n : Nat} {o : Outputs n} (hd : o.dout = 0) (hl : o.dlen = 0) : o.ShowsData :=
  ⟨[], Nat.zero_le _, hd, hl⟩

theorem Outputs.showsParity_of_zero {n r : Nat} {o : Outputs n} (h : r ≤ 9) (hr : o.rout = toByte r) (hp : o.pout = 0) :
    o.ShowsParity :=
  ⟨r, [], h, Nat.zero_le _, hr, hp⟩

section

variable {n : Nat} {o : Outputs n}

theorem Outputs.ShowsData.dlen (h : o.ShowsData) (hn : n ≤ 255) :
    o.dlen.toNat ≤ n ∧ ∀ j, o.dlen.toNat ≤ j → o.dout.getLsbD j = false := by
  obtain ⟨b, hb, hd, hl⟩ := h
  rw [hd, hl, toByte_toNat (by omega)]
  refine ⟨hb, fun j hj => ?_⟩
  rw [getLsbD_toPort, bitAt_of_le hj, Bool.and_false]

theorem Outputs.ShowsParity.rout (h : o.ShowsParity) :
    o.rout.toNat ≤ 9 ∧ ∀ k, o.rout.toNat ≤ k → o.pout.getLsbD k = false := by
  obtain ⟨r, p, hr, hp, er, ep⟩ := h
  rw [er, ep, toByte_toNat (by omega)]
  refine ⟨hr, fun k hk => ?_⟩
  rw [getLsbD_toPout, bitAt_of_le (hp.trans hk), Bool.and_false]

theorem Outputs.ShowsStatus.idx (h : o.ShowsStatus) :
    (o.status = .corrected → o.idx.toNat + 1 = o.syn.toNat) ∧ (o.status ≠ .corrected → o.idx = 0) := by
  rcases h with ⟨hs, hi⟩ | ⟨m, y, hy, hs, hi, he⟩
  · exact ⟨fun h => by simp [hs] at h, fun _ => hi⟩
  · rw [hs, hi, he, toByte_toNat hy]
    rcases locate_cases m y with ⟨-, h⟩ | ⟨h1, -, h⟩ | ⟨-, h⟩ <;> rw [h]
    · exact ⟨nofun, fun _ => rfl⟩
    · refine ⟨fun _ => ?_, fun hne => absurd rfl hne⟩
      rw [Option.getD_some, toByte_toNat (by omega), Nat.sub_add_cancel h1]
    · exact ⟨nofun, fun _ => rfl⟩

theorem Outputs.ShowsStatus.syn (h : o.ShowsStatus) :
    (o.status = .noError → o.syn = 0) ∧ (o.status = .uncorrectable → o.syn ≠ 0) := by
  rcases h with ⟨hs, -⟩ | ⟨m, y, hy, hs, -, he⟩
  · exact ⟨fun h => by simp [hs] at h, fun h => by simp [hs] at h⟩
  · rw [hs, he]
    rcases locate_cases m y with ⟨h0, h⟩ | ⟨-, -, h⟩ | ⟨hm, h⟩ <;> rw [h]
    · exact ⟨fun _ => by rw [h0]; rfl, nofun⟩
    · exact ⟨nofun, nofun⟩
    · refine ⟨nofun, fun _ h0 => ?_⟩
      have := congrArg BitVec.toNat h0
      rw [toByte_toNat hy] at this
      exact absurd this (by simp; omega)

/-- The registers are consistent when their parts are and their FAULT and RVALID mean what they should. -/
theorem Outputs.consistent_of_parts (hn : n ≤ 255)
    (hf : ∀ k : FaultKind, o.fault = k.toCode → o = Outputs.faultResponse n k)
    (hr : o.rvalid = false → o = Outputs.reset n) (hd : o.ShowsData) (hp : o.ShowsParity) (hs : o.ShowsStatus)
    (hc : o.cvalid = true → o.status = .corrected) (hz : o.cvalid = false → o.cout = 0) : o.Consistent where
  dlen_le := (hd.dlen hn).1
  dout_above := (hd.dlen hn).2
  cvalid_corrected := hc
  cout_zero := hz
  fault_image := hf
  reset_image := hr
  idx_corrected := hs.idx.1
  idx_zero := hs.idx.2
  noError_syn := hs.syn.1
  uncorrectable_syn := hs.syn.2
  rout_le := hp.rout.1
  pout_above := hp.rout.2

theorem Outputs.faultResponse_consistent (hn : n ≤ 255) (k : FaultKind) : (Outputs.faultResponse n k).Consistent :=
  Outputs.consistent_of_parts hn (fun _ hk => FaultKind.toCode_inj hk ▸ rfl) nofun (Outputs.showsData_of_zero rfl rfl)
    (Outputs.showsParity_of_zero (Nat.zero_le 9) rfl rfl) (.inl ⟨rfl, rfl⟩) nofun fun _ => rfl

theorem Outputs.reset_consistent (hn : n ≤ 255) : (Outputs.reset n).Consistent :=
  Outputs.consistent_of_parts hn (fun k hk => absurd hk.symm k.toCode_ne_ok) (fun _ => rfl)
    (Outputs.showsData_of_zero rfl rfl) (Outputs.showsParity_of_zero (Nat.zero_le 9) rfl rfl) (.inl ⟨rfl, rfl⟩) nofun
    fun _ => rfl

/-- A response without fault is consistent when its parts are. -/
theorem Outputs.consistent_of_ok (hn : n ≤ 255) (hv : o.rvalid = true) (hok : o.fault = .ok) (hd : o.ShowsData)
    (hp : o.ShowsParity) (hs : o.ShowsStatus) (hc : o.cvalid = true → o.status = .corrected)
    (hz : o.cvalid = false → o.cout = 0) : o.Consistent :=
  Outputs.consistent_of_parts hn (fun k hk => absurd (hk.symm.trans hok) k.toCode_ne_ok)
    (fun h0 => absurd (hv.symm.trans h0) (by decide)) hd hp hs hc hz

/-- A response that writes neither STATUS, IDX, CVALID nor COUT is consistent when its data and its parity are. -/
theorem Outputs.consistent_of_frame (hn : n ≤ 255)
    (h : o = { Outputs.unassigned n with
      dout := o.dout, dlen := o.dlen, pout := o.pout, rout := o.rout, syn := o.syn })
    (hd : o.ShowsData) (hp : o.ShowsParity) : o.Consistent :=
  Outputs.consistent_of_ok hn (by rw [h]; rfl) (by rw [h]; rfl) hd hp (.inl ⟨by rw [h]; rfl, by rw [h]; rfl⟩)
    (by rw [h]; nofun) (fun _ => by rw [h]; rfl)

end

/-- Settles O33: the reset values are consistent, and no interaction is to come. -/
theorem resetStateIsSound : Obligations.ResetStateIsSound where
  outputs := Outputs.reset_consistent State.reset.cfg.le_255
  host := nofun

/-! ### Every answer is consistent -/

/-- The mask of a count that POS accepts fits DOUT: its last position is below N_MAX (40_layout.md R106). -/
theorem posMaskLength_le_nMax {nMax r : Nat} (h : r ≤ rMax nMax) : posMaskLength r ≤ nMax := by
  rw [posMaskLength]
  split
  · exact Nat.zero_le _
  · exact two_pow_le_of_lt_pcc (show r - 1 < pcc nMax by rw [rMax] at h; omega)

/-- The codeword and the parity vector of ENC (42_encoder.md R140). -/
theorem encodeBits_lengths (b : Bits) :
    (encodeBits b).codeword.length = b.length + pcd b.length ∧ (encodeBits b).parity.length = pcd b.length :=
  ⟨(encodeBits_isCodeword b).length, (encodeBits_isCodeword b).parity_length⟩

/-- What SYN and DEC find fits their registers (43_decoder.md R154). -/
theorem syndrome_lengths {s : State} {n : Nat} {y : SyndromeResult}
    (h : syndrome s.cfg.nMax (s.operandBits n) = .ok y) :
    n ≤ s.cfg.nMax ∧ y.r ≤ 9 ∧ y.data.length = n - y.r ∧ y.expected.length = y.r ∧
    ∀ c : Bits, c.length = n → (extract c y.r).length = n - y.r := by
  obtain ⟨hc, hy⟩ := syndrome_isSyndrome h
  obtain ⟨hr, -, hn, -, -⟩ := checkLength_ok hc
  rw [operandBits_length] at hr hn
  have hext : ∀ c : Bits, c.length = n → (extract c y.r).length = n - y.r := fun c hc => by
    rw [← hc]
    exact extract_length fun k hk => two_pow_le_of_lt_pcc (by rwa [hc, ← hr])
  have hr8 : y.r ≤ 8 := hr ▸ pcc_le_eight (by have := s.cfg.le_255; omega)
  refine ⟨hn, by omega, ?_, hy.expected_length, hext⟩
  rw [hy.data, dataSlots_eq]
  exact hext _ (operandBits_length s n)

/-- The decoded message is as long as the data bits received (43_decoder.md R157). -/
theorem decoded_message_length {s : State} {n : Nat} {y : SyndromeResult} {d : Decoded}
    (hy : syndrome s.cfg.nMax (s.operandBits n) = .ok y) (hd : decodeCodeword s.cfg.nMax (s.operandBits n) = .ok d) :
    d.message.length = n - y.r := by
  obtain ⟨-, -, hdata, -, hext⟩ := syndrome_lengths hy
  obtain ⟨-, -, hm | ⟨i, hm⟩⟩ := decodeCodeword_located hy hd
  · rw [hm, hdata]
  · rw [hm, hext _ ((flipBit_length _ _).trans (operandBits_length s n))]

/-- An operation's answer is consistent, in every state, if its operands fit their fields. -/
theorem Answer.consistent {s : State} {i : Instr} {o : Outputs s.cfg.nMax} (hw : i.wellFormed = true)
    (h : Answer s i o) : o.Consistent := by
  have hn := s.cfg.le_255
  have h8 := rMax_le_eight s.cfg
  cases h with
  | fault i k => exact Outputs.faultResponse_consistent hn k
  | pcd m =>
    exact Outputs.consistent_of_frame hn rfl (Outputs.showsData_of_zero rfl rfl)
      (Outputs.showsParity_of_zero (pcd_le_nine (of_decide_eq_true hw)) rfl rfl)
  | pcc n =>
    have hr := pcc_le_eight (of_decide_eq_true hw)
    exact Outputs.consistent_of_frame hn rfl (Outputs.showsData_of_zero rfl rfl)
      (Outputs.showsParity_of_zero (by omega) rfl rfl)
  | pos r hr =>
    have hl : (posMask r).length = posMaskLength r := by simp [posMask]
    exact Outputs.consistent_of_frame hn rfl
      ⟨posMask r, hl ▸ posMaskLength_le_nMax hr, rfl, by rw [hl]⟩ (Outputs.showsParity_of_zero (by omega) rfl rfl)
  | plc m r hr hm =>
    have hl : (place (s.operandBits m) r).length = m + r := by rw [place_length, operandBits_length]
    exact Outputs.consistent_of_frame hn rfl
      ⟨_, hl ▸ hm, rfl, by rw [hl]⟩ (Outputs.showsParity_of_zero (by omega) rfl rfl)
  | par n r hr =>
    exact Outputs.consistent_of_frame hn rfl (Outputs.showsData_of_zero rfl rfl)
      ⟨r, _, by omega, (parities_length _ r).le, rfl, rfl⟩
  | enc m hm =>
    obtain ⟨hl, hp⟩ := encodeBits_lengths (s.operandBits m)
    rw [operandBits_length] at hl hp
    exact Outputs.consistent_of_frame hn rfl
      ⟨_, hl ▸ hm, rfl, by rw [hl]⟩ ⟨_, _, pcd_le_nine (by omega), hp.le, rfl, rfl⟩
  | syn n y hy =>
    obtain ⟨hnn, hr, hd, he, -⟩ := syndrome_lengths hy
    exact Outputs.consistent_of_frame hn rfl
      ⟨y.data, by omega, rfl, by rw [hd]⟩ ⟨y.r, y.expected, hr, he.le, rfl, rfl⟩
  | loc n y =>
    have hy : y < 256 := of_decide_eq_true (Bool.and_eq_true_iff.1 hw).2
    exact Outputs.consistent_of_ok hn rfl rfl (Outputs.showsData_of_zero rfl rfl)
      (Outputs.showsParity_of_zero (Nat.zero_le 9) rfl rfl) (.inr ⟨n, y, hy, rfl, rfl, rfl⟩) nofun fun _ => rfl
  | dec n y d hy hd =>
    obtain ⟨hnn, hr, -, he, -⟩ := syndrome_lengths hy
    obtain ⟨-, -, -, hlt, -⟩ := syndrome_fits hy
    have hm := decoded_message_length hy hd
    obtain ⟨hst, -, -⟩ := decodeCodeword_located hy hd
    rw [operandBits_length] at hst
    refine Outputs.consistent_of_ok hn rfl rfl ⟨d.message, by omega, rfl, by rw [hm]; rfl⟩
      ⟨y.r, y.expected, hr, he.le, rfl, rfl⟩ (.inr ⟨n, y.syndrome, hlt, hst, rfl, rfl⟩) ?_ ?_
    · exact fun hv => ((Answer.dec n y d hy hd).cvalid_iff.1 hv).2.2
    · intro hv
      have hnone : d.corrected = none := Option.not_isSome_iff_eq_none.1 (Bool.eq_false_iff.1 hv)
      simp only [decResponse, hnone]
      rfl

theorem runRequest_consistent (s : State) : ∃ o, runRequest s = .next (s.withOut o) ∧ o.Consistent := by
  cases hd : decode s.ctrl with
  | ok i =>
    obtain ⟨o, ha, ho⟩ := exec_answers i s
    exact ⟨o, (runRequest_of_ok hd).trans ho.exec_eq, ha.consistent (decode_wellFormed hd)⟩
  | error e => exact ⟨_, runRequest_of_error hd, Outputs.faultResponse_consistent s.cfg.le_255 _⟩

theorem interact_keeps_sound {s t : State} {e : HostEvent s.cfg.nMax} (hs : s.Sound) (he : e.keepsObligation = true)
    (ht : interact s e = .next t) : t.Sound := by
  rcases interact_cases he with ⟨-, h⟩ | ⟨-, h⟩ | ⟨-, -, c, d, h⟩ <;> rw [h] at ht
  · obtain ⟨o, ho, hc⟩ := runRequest_consistent s
    cases ho.symm.trans ht
    exact ⟨hc, hs.host⟩
  · cases ht
    exact ⟨Outputs.reset_consistent s.cfg.le_255, hs.host⟩
  · cases ht
    exact ⟨hs.outputs, hs.host⟩

/-- Settles O32: the step is idle or one interaction, which keeps R234. -/
theorem stepKeepsSoundState : Obligations.StepKeepsSoundState := by
  intro s t hs ht
  cases h : s.host with
  | nil =>
    rw [step_idle h] at ht
    cases ht
    exact hs
  | cons e rest =>
    rw [step_cons h] at ht
    have hrest : (s.withHost rest).Sound := ⟨hs.outputs, fun e' he' => hs.host e' (h ▸ List.mem_cons_of_mem e he')⟩
    exact interact_keeps_sound hrest (hs.host e (h ▸ List.mem_cons_self)) ht

end Sys2Proof.Machine
end

section
/-!
SUPPORT. Control words and rows of the opcode table (30_encoding.md R71 to R75), and that decoding undoes encoding
(R79).
-/

namespace Sys2Proof.Machine

/-! ### Words that match a row (30_encoding.md R75) -/

/-- A match fixes each part of the word that the mask keeps whole. -/
theorem Selects.extract_toNat {w : Word} {op start len : Nat} (h : Selects w op)
    (hmask : (0xFF0000FF#32).extractLsb' start len = BitVec.allOnes len) :
    (w.extractLsb' start len).toNat = op % 2 ^ 32 / 2 ^ start % 2 ^ len := by
  have hpart := congrArg (BitVec.extractLsb' start len) h
  rw [BitVec.extractLsb'_and, hmask, BitVec.and_allOnes] at hpart
  rw [hpart, BitVec.extractLsb'_toNat, BitVec.toNat_ofNat, Nat.shiftRight_eq_div_pow]

/-- A match fixes RSV1, RSV0 and OP, and neither LEN nor ARG. -/
theorem Selects.fields {w : Word} {op : Nat} (h : Selects w op) (ho : op < 16) :
    ctrlRsv1 w = 0 ∧ ctrlRsv0 w = 0 ∧ (ctrlOp w).toNat = op := by
  refine ⟨BitVec.eq_of_toNat_eq ((h.extract_toNat (by decide)).trans ?_),
    BitVec.eq_of_toNat_eq ((h.extract_toNat (by decide)).trans ?_), (h.extract_toNat (by decide)).trans ?_⟩
  · show op % 2 ^ 32 / 2 ^ 24 % 2 ^ 8 = 0
    omega
  · show op % 2 ^ 32 / 2 ^ 4 % 2 ^ 4 = 0
    omega
  · show op % 2 ^ 32 / 2 ^ 0 % 2 ^ 4 = op
    omega

/-- Settles O4: a match fixes RSV1, RSV0 and OP, and `decode` branches on nothing else. -/
theorem tableRowsDecode : Obligations.TableRowsDecode := by
  intro w
  refine ⟨fun h => ?_, fun h => ?_, fun h => ?_, fun h => ?_, fun h => ?_, fun h => ?_, fun h => ?_, fun h => ?_,
    fun h => ?_⟩ <;>
  · obtain ⟨h1, h0, hop⟩ := h.fields (by decide)
    simp [decode, h1, h0, hop, ctrlLen, ctrlArg]

/-- Settles O2: each word matches its row, and each illegal one fails the check of R74 that names it. -/
theorem writtenOutWordsDecode : Obligations.WrittenOutWordsDecode := by
  unfold Obligations.WrittenOutWordsDecode
  decide

/-! ### The fields of an assembled word (30_encoding.md R79) -/

theorem ctrlLen_ctrlWord {op len arg : Nat} (ho : op < 16) (hl : len < 256) (ha : arg < 256) :
    ctrlLen (ctrlWord op len arg) = len := by
  rw [ctrlLen, BitVec.extractLsb'_toNat, ctrlWord_toNat ho hl ha, Nat.shiftRight_eq_div_pow]
  omega

theorem ctrlArg_ctrlWord {op len arg : Nat} (ho : op < 16) (hl : len < 256) (ha : arg < 256) :
    ctrlArg (ctrlWord op len arg) = arg := by
  rw [ctrlArg, BitVec.extractLsb'_toNat, ctrlWord_toNat ho hl ha, Nat.shiftRight_eq_div_pow]
  omega

theorem opcode_lt (i : Instr) : i.opcode < 16 := by cases i <;> simp [Instr.opcode]

/-- Both fields of a well-formed operation fit: each is an operand of it or 0. -/
theorem fields_lt_of_wellFormed {i : Instr} (h : i.wellFormed = true) : i.lenField < 256 ∧ i.argField < 256 := by
  cases i <;> simpa [Instr.wellFormed, Instr.lenField, Instr.argField] using h

theorem encode_selects {i : Instr} (h : i.wellFormed = true) : Selects (encode i) i.opcode :=
  Laws.ctrlWord_masked (opcode_lt i) (fields_lt_of_wellFormed h).1 (fields_lt_of_wellFormed h).2

/-- Settles O3: the assembled word matches the operation's row (R75), whose LEN and ARG are the operation's fields. -/
theorem decodeEncodeRoundTrip : Obligations.DecodeEncodeRoundTrip := by
  intro i h
  obtain ⟨hl, ha⟩ := fields_lt_of_wellFormed h
  have hs := encode_selects h
  have hlen : ((encode i).extractLsb' 8 8).toNat = i.lenField := ctrlLen_ctrlWord (opcode_lt i) hl ha
  have harg : ((encode i).extractLsb' 16 8).toNat = i.argField := ctrlArg_ctrlWord (opcode_lt i) hl ha
  obtain ⟨pcd, pcc, pos, plc, par, enc, syn, loc, dec⟩ := tableRowsDecode (encode i)
  cases i with
  | pcd m => rw [pcd hs, hlen]; rfl
  | pcc n => rw [pcc hs, hlen]; rfl
  | pos r => rw [pos hs, harg]; rfl
  | plc m r => rw [plc hs, hlen, harg]; rfl
  | par n r => rw [par hs, hlen, harg]; rfl
  | enc m => rw [enc hs, hlen]; rfl
  | syn n => rw [syn hs, hlen]; rfl
  | loc n s => rw [loc hs, hlen, harg]; rfl
  | dec n => rw [dec hs, hlen]; rfl

end Sys2Proof.Machine
end

section
/-!
SUPPORT. Assembling and disassembling (30_encoding.md R78, R79), and a line's text read back as the line (log entry 12).
-/

namespace Sys2Proof.Machine

/-! ### The assembler and the disassembler -/

theorem AsmLine.ctrl_of_ok {l : AsmLine} {i : Instr} (h : l.instr = .ok i) : l.ctrl = encode i := by
  simp only [AsmLine.ctrl, h]

/-- A legal request is disassembled to a line of its operation, whatever DIN holds (log entry 17). -/
theorem disassemble_instr_of_ok {nMax : Nat} {w : Word} {i : Instr} (d : BitVec nMax) (h : decode w = .ok i) :
    (disassemble w d).instr = .ok i := by
  cases i <;> simp [disassemble, h, AsmLine.instr]

theorem disassemble_of_error {nMax : Nat} {w : Word} {e : DecodeReject} (d : BitVec nMax) (h : decode w = .error e) :
    disassemble w d = .word w := by
  simp [disassemble, h]

/-- A word of a line's operation is disassembled to the line when DIN carries the line's bit string. -/
theorem disassemble_of_instr {nMax : Nat} {w : Word} {i : Instr} {l : AsmLine} {d : BitVec nMax} (hd : decode w = .ok i)
    (hi : l.instr = .ok i) (hb : fromPort d l.bits.length = l.bits) : disassemble w d = l := by
  cases l <;> cases hi <;> simp [disassemble, hd] <;> exact hb

theorem disassemble_assemble {nMax : Nat} {l : AsmLine} (h : l.fits nMax = true) :
    disassemble (assemble nMax l).1 (assemble nMax l).2 = l := by
  obtain ⟨hlen, hfit⟩ := Bool.and_eq_true_iff.1 h
  have hbits : fromPort (toPort nMax l.bits) l.bits.length = l.bits := fromPort_toPort (of_decide_eq_true hlen)
  cases hi : l.instr with
  | ok i =>
    rw [hi] at hfit
    refine disassemble_of_instr ?_ hi hbits
    rw [assemble, AsmLine.ctrl_of_ok hi]
    exact decodeEncodeRoundTrip i hfit
  | error w =>
    obtain rfl : l = .word w := by cases l <;> cases hi; rfl
    cases hw : decode w with
    | ok i => simp [hi, hw, Except.toOption] at hfit
    | error e => exact disassemble_of_error _ hw

/-- Settles O45: a line that fits is read back from CTRL and DIN, as decoding undoes encoding (O3) and DIN carries the
bit string whole; a disassembled request is a line of the same operation, or the `.word` line of the same word. -/
theorem assembleDisassembleRoundTrip : Obligations.AssembleDisassembleRoundTrip := by
  refine ⟨fun nMax l h => disassemble_assemble h, fun nMax w d => ?_⟩
  cases hw : decode w with
  | ok i =>
    rw [assemble, AsmLine.ctrl_of_ok (disassemble_instr_of_ok d hw)]
    exact decodeEncodeRoundTrip i (decode_wellFormed hw)
  | error e => rw [disassemble_of_error d hw]; exact hw

/-- Settles O44: both ports of each line, evaluated. -/
theorem assembledExamples : Obligations.AssembledExamples := by
  unfold Obligations.AssembledExamples
  decide

/-! ### Numbers as text -/

/-- A text whose digits have known values is the number they stand for in the base (Horner's rule). -/
theorem numberFrom_map {α : Type} {base : Nat} {digit : α → Char} {value : α → Nat} {ks : List α} (acc : Nat)
    (h : ∀ k ∈ ks, digitValue base (digit k) = some (value k)) :
    numberFrom base acc (ks.map digit) = some (ks.foldl (fun n k => base * n + value k) acc) := by
  induction ks generalizing acc with
  | nil => rfl
  | cons k ks ih =>
    rw [List.map_cons, numberFrom, h k List.mem_cons_self, Option.bind_some,
      ih _ fun k' hk => h k' (List.mem_cons_of_mem k hk), List.foldl_cons, Nat.mul_comm]

theorem digitValue_ten {c : Char} (h : c.isDigit = true) : digitValue 10 c = some (c.toNat - '0'.toNat) := by
  obtain ⟨h0, h9⟩ := Char.isDigit_iff_toNat.1 h
  have hrange : '0' ≤ c ∧ c ≤ '9' := ⟨h0, h9⟩
  have hlt : c.toNat - '0'.toNat < 10 := by
    rw [show '9'.toNat = '0'.toNat + 9 by decide] at h9
    omega
  simp only [digitValue, if_pos hrange, if_pos hlt]

/-- A decimal text reads back as its number: `Nat.ofDigitChars` reads it as `numberFrom` does. -/
@[simp] theorem parseNumber_toDigits (n : Nat) : parseNumber 10 (Nat.toDigits 10 n) = some n := by
  have hnum := numberFrom_map (digit := id) 0 fun c hc =>
    digitValue_ten (Nat.isDigit_of_mem_toDigits (b := 10) (n := n) (by decide) (by decide) hc)
  have hread : Nat.ofDigitChars 10 (Nat.toDigits 10 n) 0 = n := Nat.ofDigitChars_ten_toDigits
  rw [Nat.ofDigitChars_eq_foldl] at hread
  simp only [List.map_id, id_eq, hread] at hnum
  rw [parseNumber, if_neg Nat.toDigits_ne_nil, hnum]

/-- The digit the disassembler prints for a number below 16. -/
theorem digitValue_toUpper_digitChar {v : Nat} (h : v < 16) : digitValue 16 (Nat.digitChar v).toUpper = some v := by
  interval_cases v <;> decide

@[simp] theorem parseNumber_hexText (w : Word) : parseNumber 16 (hexText w) = some w.toNat := by
  have hnum := numberFrom_map (base := 16) (ks := List.range 8) 0
    fun k _ => digitValue_toUpper_digitChar (Nat.mod_lt (w.toNat >>> (4 * (7 - k))) (by decide : 0 < 16))
  have hw := w.isLt
  rw [parseNumber, if_neg (by simp [hexText]), hexText, hnum]
  simp [List.range_succ, Nat.shiftRight_eq_div_pow]
  omega

/-! ### Bit strings as text -/

theorem bitsText_cons (x : Bool) (b : Bits) :
    bitsText (x :: b) = (x :: b).map fun y => if y then '1' else '0' := if_neg (List.cons_ne_nil x b)

/-- The reader of one bit character undoes its printing. -/
theorem mapM_bitChars (b : Bits) :
    (b.map fun x => if x then '1' else '0').mapM
      (fun c => if c = '1' then some true else if c = '0' then some false else none) = some b := by
  induction b with
  | nil => rfl
  | cons x b ih => cases x <;> simp [ih]

@[simp] theorem parseBits_bitsText (b : Bits) : parseBits (bitsText b) = some b := by
  cases b with
  | nil => rfl
  | cons x b =>
    have hquote : bitsText (x :: b) ≠ ['"', '"'] := by rw [bitsText_cons]; cases x <;> simp
    rw [parseBits, if_neg hquote, bitsText_cons, if_neg (by simp), mapM_bitChars]

/-! ### Where a text is cut (log entry 12) -/

theorem splitAtChar_append {c : Char} {a : List Char} (b : List Char) (h : c ∉ a) :
    splitAtChar c (a ++ c :: b) = (a, b) := by
  induction a with
  | nil => simp [splitAtChar]
  | cons x a ih =>
    obtain ⟨hx, ha⟩ := not_or.1 (List.mem_cons.not.1 h)
    simp [splitAtChar, Ne.symm hx, ih ha]

theorem splitAtChar_of_notMem {c : Char} {a : List Char} (h : c ∉ a) : splitAtChar c a = (a, []) := by
  induction a with
  | nil => rfl
  | cons x a ih =>
    obtain ⟨hx, ha⟩ := not_or.1 (List.mem_cons.not.1 h)
    simp [splitAtChar, Ne.symm hx, ih ha]

/-- The text holds no separator, so it is read as one operand. -/
structure OneOperand (t : List Char) : Prop where
  no_blank : ' ' ∉ t
  no_comma : ',' ∉ t

/-- A text whose characters have a property that neither separator has is one operand. -/
theorem OneOperand.of_forall {t : List Char} {p : Char → Prop} (h : ∀ c ∈ t, p c) (hb : ¬ p ' ') (hc : ¬ p ',') :
    OneOperand t := ⟨fun hm => hb (h _ hm), fun hm => hc (h _ hm)⟩

@[simp] theorem oneOperand_toDigits (n : Nat) : OneOperand (Nat.toDigits 10 n) :=
  .of_forall (p := fun c => c.isDigit = true) (fun _ hc => Nat.isDigit_of_mem_toDigits (by decide) (by decide) hc)
    (by decide) (by decide)

@[simp] theorem oneOperand_bitsText (b : Bits) : OneOperand (bitsText b) := by
  cases b with
  | nil => exact ⟨by decide, by decide⟩
  | cons x b =>
    refine .of_forall (p := fun c => c = '0' ∨ c = '1') (fun c hc => ?_) (by decide) (by decide)
    rw [bitsText_cons] at hc
    obtain ⟨y, -, rfl⟩ := List.mem_map.1 hc
    cases y <;> simp

@[simp] theorem oneOperand_hexText (w : Word) : OneOperand ('0' :: 'x' :: hexText w) := by
  have h : OneOperand (hexText w) := by
    refine .of_forall (p := fun c => (digitValue 16 c).isSome = true) (fun c hc => ?_) (by decide) (by decide)
    obtain ⟨k, -, rfl⟩ := List.mem_map.1 hc
    rw [digitValue_toUpper_digitChar (Nat.mod_lt _ (by decide)), Option.isSome_some]
  exact ⟨by simp [h.no_blank], by simp [h.no_comma]⟩

theorem filter_blank {t : List Char} (h : OneOperand t) : t.filter (· ≠ ' ') = t :=
  List.filter_eq_self.2 fun _ hc => decide_eq_true fun e => h.no_blank (e ▸ hc)

theorem operandPair_of_oneOperand {t : List Char} (h : OneOperand t) : operandPair t = (t, []) := by
  simp only [operandPair, splitAtChar_of_notMem h.no_comma, filter_blank h, List.filter_nil]

theorem operandPair_pairText {a b : List Char} (ha : OneOperand a) (hb : OneOperand b) :
    operandPair (pairText a b) = (a, b) := by
  rw [operandPair, pairText, splitAtChar_append _ ha.no_comma]
  simp only [filter_blank ha]
  rw [List.filter_cons_of_neg (by simp), filter_blank hb]

/-! ### Lines -/

theorem lineOf_text (l : AsmLine) : lineOf l.mnemonicText l.operandsText = some l := by
  cases l with
  | pcd _ | pcc _ | pos _ | enc _ | syn _ | dec _ =>
    simp [lineOf, AsmLine.mnemonicText, AsmLine.operandsText, operandPair_of_oneOperand, OneOperand.no_comma]
  | plc _ _ | par _ _ | loc _ _ =>
    simp [lineOf, AsmLine.mnemonicText, AsmLine.operandsText, operandPair_pairText]
  | word w =>
    have hlen : (hexText w).length = 8 := by simp [hexText]
    simpa [lineOf, AsmLine.mnemonicText, AsmLine.operandsText, operandPair_of_oneOperand, hlen] using
      (oneOperand_hexText w).no_comma

/-- Settles O46: the text is cut at its first blank into the mnemonic and the operands, and those name the line. -/
theorem lineTextReadsBack : Obligations.LineTextReadsBack := by
  intro nMax l h
  have hm : ' ' ∉ l.mnemonicText := by cases l <;> simp [AsmLine.mnemonicText]
  rw [parseLine, AsmLine.text, splitAtChar_append _ hm]
  simp only [lineOf_text, h, if_true]

end Sys2Proof.Machine
end

section
/-!
SUPPORT. The parity layout (40_layout.md): what the two counts are at most, their agreement and values (R103), and the
operations PCD, PCC and POS (R104 to R106).
-/

namespace Sys2Proof.Machine

/-! ### What each count is at most (40_layout.md R100, R101) -/

/-- The least number that the condition of R101 holds of is at most those it holds of. -/
theorem pcc_le_iff {n r : Nat} : pcc n ≤ r ↔ n + 1 ≤ 2 ^ r :=
  ⟨fun h => (pcc_holds n).trans (Nat.pow_le_pow_right (by decide) h), pcc_le_of⟩

/-- From one number to the next, the left side of the condition of R100 grows by at least the right side's 1. -/
theorem pcd_condition_mono {m p r : Nat} (hp : m + p + 1 ≤ 2 ^ p) (h : p ≤ r) : m + r + 1 ≤ 2 ^ r := by
  induction r, h using Nat.le_induction with
  | base => exact hp
  | succ r _ ih => rw [pow_succ]; omega

/-- The least number that the condition of R100 holds of is at most those it holds of. -/
theorem pcd_le_iff {m r : Nat} : pcd m ≤ r ↔ m + r + 1 ≤ 2 ^ r :=
  ⟨pcd_condition_mono (pcd_holds m), pcd_le_of⟩

theorem lt_pcc_iff {n k : Nat} : k < pcc n ↔ 2 ^ k ≤ n := by
  rw [← not_le, pcc_le_iff, not_le, Nat.lt_succ_iff]

theorem lt_pcd_iff {m k : Nat} : k < pcd m ↔ 2 ^ k ≤ m + k := by
  rw [← not_le, pcd_le_iff, not_le, Nat.lt_succ_iff]

/-! ### Agreement and values (40_layout.md R103) -/

theorem two_le_pcd {m : Nat} (h : 1 ≤ m) : 2 ≤ pcd m := lt_pcd_iff.2 (by omega)

/-- The count of a codeword's length is the count of its message's (40_layout.md R103 item 3). -/
theorem pcc_add_pcd (m : Nat) : pcc (m + pcd m) = pcd m :=
  pcc_eq_of (pcd_holds m) fun _ hq => Nat.lt_succ_of_le (two_pow_le_of_lt_pcd hq)

/-- The parity positions of a length are all the indices 2^k - 1 below it (40_layout.md R103 item 4). -/
theorem mem_pos_pcc {n i : Nat} : i ∈ pos (pcc n) ↔ i < n ∧ ∃ k, i + 1 = 2 ^ k := by
  rw [mem_pos, ← exists_and_left]
  refine exists_congr fun k => and_congr_left fun hi => ?_
  rw [lt_pcc_iff, ← hi, Nat.succ_le_iff]

/-- Settles O34: each item by the bounds that characterise the counts. -/
theorem parityCountsAgree : Obligations.ParityCountsAgree :=
  ⟨fun m => pcd_mono m.le_succ, fun _ h => two_le_pcd h, fun m _ => pcc_add_pcd m, fun _ _ _ => mem_pos_pcc⟩

/-- The message lengths that take r + 1 parity bits. -/
theorem pcd_eq_succ_iff {m r : Nat} : pcd m = r + 1 ↔ 2 ^ r ≤ m + r ∧ m + (r + 1) + 1 ≤ 2 ^ (r + 1) := by
  rw [← lt_pcd_iff, ← pcd_le_iff]
  omega

/-- The codeword lengths that take r + 1 parity bits. -/
theorem pcc_eq_succ_iff {n r : Nat} : pcc n = r + 1 ↔ 2 ^ r ≤ n ∧ n + 1 ≤ 2 ^ (r + 1) := by
  rw [← lt_pcc_iff, ← pcc_le_iff]
  omega

/-- Settles O35: length 0 takes no parity bit, and each other row of the tables is the range of its count. -/
theorem parityCountValues : Obligations.ParityCountValues := by
  intro m hm
  rcases Nat.eq_zero_or_pos m with rfl | hpos
  · exact ⟨rfl, rfl⟩
  · rw [if_neg hpos.ne', if_neg hpos.ne']
    constructor
    · split_ifs <;> exact pcd_eq_succ_iff.2 ⟨by omega, by omega⟩
    · split_ifs <;> exact pcc_eq_succ_iff.2 ⟨by omega, by omega⟩

/-! ### PCD and PCC (40_layout.md R104, R105) -/

/-- Settles O7: PCD's row of the opcode table, and the count that `pcd_spec` says is the least. -/
theorem pcdAnswersLeastCount : Obligations.PcdAnswersLeastCount := by
  refine ⟨fun w => ?_, fun s m => ⟨pcd m, pcd_spec m, rfl⟩⟩
  obtain ⟨hpcd, -⟩ := tableRowsDecode w
  exact hpcd

/-- Settles O8: PCC's row of the opcode table, and the count that `pcc_spec` says is the least. -/
theorem pccAnswersLeastCount : Obligations.PccAnswersLeastCount := by
  refine ⟨fun w => ?_, fun s n => ⟨pcc n, pcc_spec n, rfl⟩⟩
  obtain ⟨-, hpcc, -⟩ := tableRowsDecode w
  exact hpcc

/-! ### POS (40_layout.md R106) -/

@[simp] theorem posMask_length (r : Nat) : (posMask r).length = posMaskLength r := by simp [posMask]

/-- The mask is long enough for every parity position of its count. -/
theorem lt_posMaskLength_of_isPar {r j : Nat} (h : isPar r j = true) : j < posMaskLength r := by
  obtain ⟨k, hk, hj⟩ := isPar_iff.1 h
  rw [posMaskLength, if_neg (by omega), ← Nat.succ_le_iff, Nat.succ_eq_add_one, hj]
  exact Nat.pow_le_pow_right (by decide) (by omega)

@[simp] theorem bitAt_posMask (r j : Nat) : bitAt (posMask r) j = isPar r j := by
  rw [posMask, bitAt_map_range, Bool.and_eq_right_iff_imp]
  exact fun h => decide_eq_true (lt_posMaskLength_of_isPar h)

/-- DOUT of a count that POS accepts has its ones at the parity positions. -/
theorem getLsbD_toPort_posMask {nMax r : Nat} (h : r ≤ rMax nMax) (j : Nat) :
    (toPort nMax (posMask r)).getLsbD j = true ↔ ∃ k, k < r ∧ j = 2 ^ k - 1 := by
  have hfit : (posMask r).length ≤ nMax := by rw [posMask_length]; exact posMaskLength_le_nMax h
  rw [shows_toPort hfit j, bitAt_posMask, isPar_iff]
  refine exists_congr fun k => and_congr_right fun _ => ?_
  have := Nat.two_pow_pos k
  omega

theorem execPos_of_gt {s : State} {r : Nat} (h : r > rMax s.cfg.nMax) :
    execPos r s = raiseFault .invalidInput s := if_pos h

theorem execPos_of_le {s : State} {r : Nat} (h : r ≤ rMax s.cfg.nMax) :
    execPos r s = .next (s.withOut { Outputs.unassigned s.cfg.nMax with
      dout := toPort s.cfg.nMax (posMask r), dlen := toByte (posMaskLength r), rout := toByte r }) :=
  if_neg (not_lt.2 h)

/-- Settles O9: POS's row of the opcode table, the fault above R_MAX, and the mask bit by bit up to it. -/
theorem posAnswersPositionMask : Obligations.PosAnswersPositionMask := by
  refine ⟨fun w => ?_, fun s r => ⟨execPos_of_gt, fun h => ?_⟩⟩
  · obtain ⟨-, -, hpos, -⟩ := tableRowsDecode w
    exact hpos
  · exact ⟨toPort s.cfg.nMax (posMask r), getLsbD_toPort_posMask h, execPos_of_le h⟩

end Sys2Proof.Machine
end

section
/-!
SUPPORT. Placement and parity (41_placement_parity.md): coverage as a bit of the one-based position (R123, R124), a
placed buffer (R120, R121), and the operations PLC and PAR (R126, R127).
-/

namespace Sys2Proof.Machine

/-! ### Coverage (41_placement_parity.md R123, R124) -/

/-- From index 2^k - 1 on, the block number counted from there is one less than that counted from one-based position 0,
so the one is even exactly when the other is odd (41_placement_parity.md R123). -/
theorem covers_two_pow_sub_one (k i : Nat) : covers (2 ^ k - 1) i = (i + 1).testBit k := by
  have hpos := Nat.two_pow_pos k
  rw [Bool.eq_iff_iff, covers_iff, Nat.sub_add_cancel hpos]
  by_cases hi : 2 ^ k ≤ i + 1
  · have hblock : (i - (2 ^ k - 1)) / 2 ^ k + 1 = (i + 1) / 2 ^ k := by
      rw [← Nat.add_div_right _ hpos]
      congr 1
      omega
    rw [testBit_eq_div, ← hblock, decide_eq_true_iff]
    omega
  · rw [Nat.testBit_lt_two_pow (by omega)]
    simp only [Bool.false_eq_true, iff_false]
    omega

/-- A group holds one parity position, its own, as 2^j has no bit but bit j (41_placement_parity.md R124). -/
theorem covers_pos_iff {k j : Nat} : covers (2 ^ k - 1) (2 ^ j - 1) = true ↔ j = k := by
  rw [covers_two_pow_sub_one, Nat.sub_add_cancel (Nat.two_pow_pos j), Nat.testBit_two_pow, decide_eq_true_iff]

/-- Settles O37: coverage is a bit of the one-based position, and that of a parity position is a power of two. -/
theorem coverageIsBitOfOneBasedPosition : Obligations.CoverageIsBitOfOneBasedPosition :=
  ⟨covers_two_pow_sub_one, fun _ _ => covers_pos_iff⟩

/-! ### Placed buffers (41_placement_parity.md R120, R121) -/

/-- No more than r indices are parity positions, whether or not the buffer holds all of them. -/
theorem countP_isPar_le (r n : Nat) : (List.range n).countP (isPar r) ≤ r := by
  have hsub : (List.range n).filter (isPar r) ⊆ pos r := fun i hi => by
    rw [mem_pos, ← isPar_iff]
    exact (List.mem_filter.1 hi).2
  calc (List.range n).countP (isPar r)
      = ((List.range n).filter (isPar r)).length := List.countP_eq_length_filter
    _ ≤ (pos r).length := ((List.nodup_range.filter _).subperm hsub).length_le
    _ = r := pos_length r

/-- A buffer of length m + r has a data slot for each of m bits. -/
theorem le_slotCount (m r : Nat) : m ≤ slotCount r 0 (m + r) := by
  have hsum := slotCount_add r (m + r)
  have hpar := countP_isPar_le r (m + r)
  omega

/-- Every bit is placed, and the data slots left over are 0, whatever the parity count (41_placement_parity.md R121). -/
theorem dataSlots_place (b : Bits) (r : Nat) :
    dataSlots (place b r) r = b ++ List.replicate (slotCount r 0 (b.length + r) - b.length) false := by
  rw [dataSlots_eq, extract, place, extractFrom_placeFrom, List.take_of_length_le (le_slotCount b.length r)]

theorem bitAt_place_pos (b : Bits) {r k : Nat} (h : k < r) : bitAt (place b r) (2 ^ k - 1) = false :=
  bitAt_placeFrom_isPar r 0 _ b _ (by rw [Nat.zero_add]; exact isPar_pos h)

/-! ### PLC (41_placement_parity.md R126) -/

theorem execPlc_of_refused {s : State} {m r : Nat} (h : r > rMax s.cfg.nMax ∨ m + r > s.cfg.nMax) :
    execPlc m r s = raiseFault .invalidInput s := if_pos h

theorem execPlc_of_accepted {s : State} {m r : Nat} (hr : r ≤ rMax s.cfg.nMax) (hm : m + r ≤ s.cfg.nMax) :
    execPlc m r s = .next (s.withOut { Outputs.unassigned s.cfg.nMax with
      dout := toPort s.cfg.nMax (place (s.operandBits m) r), dlen := toByte (m + r), rout := toByte r }) :=
  if_neg (not_or.2 ⟨not_lt.2 hr, not_lt.2 hm⟩)

/-- Settles O10: PLC's row of the opcode table, the fault, and the buffer `place`, which fits DOUT. -/
theorem plcAnswersPlacedBuffer : Obligations.PlcAnswersPlacedBuffer := by
  refine ⟨fun w => ?_, fun s m r => ⟨execPlc_of_refused, fun hr hm => ?_⟩⟩
  · obtain ⟨-, -, -, hplc, -⟩ := tableRowsDecode w
    exact hplc
  · have hlen : (place (s.operandBits m) r).length = m + r := by rw [place_length, operandBits_length]
    exact ⟨place (s.operandBits m) r, toPort s.cfg.nMax (place (s.operandBits m) r), hlen,
      fun _ => bitAt_place_pos _, ⟨_, dataSlots_place _ r⟩, shows_toPort (hlen.trans_le hm), execPlc_of_accepted hr hm⟩

/-! ### PAR (41_placement_parity.md R127) -/

theorem execPar_of_refused {s : State} {n r : Nat} (h : n > s.cfg.nMax ∨ r > rMax s.cfg.nMax) :
    execPar n r s = raiseFault .invalidInput s := if_pos h

theorem execPar_of_accepted {s : State} {n r : Nat} (hn : n ≤ s.cfg.nMax) (hr : r ≤ rMax s.cfg.nMax) :
    execPar n r s = .next (s.withOut { Outputs.unassigned s.cfg.nMax with
      pout := toPout (parities (s.operandBits n) r), rout := toByte r }) :=
  if_neg (not_or.2 ⟨not_lt.2 hn, not_lt.2 hr⟩)

/-- POUT has room for a parity vector of up to eight elements, and shows in each the parity of its group. -/
theorem getLsbD_toPout_parities {r : Nat} (h : r ≤ 8) (c : Bits) (k : Nat) :
    (toPout (parities c r)).getLsbD k = (decide (k < r) && oddOnes c (inGroup (2 ^ k - 1))) := by
  have hgroup : inGroup (2 ^ k - 1) = covers (2 ^ k - 1) := funext (inGroup_eq _)
  rw [toPout, shows_toPort ((parities_length c r).trans_le h) k, bitAt_parities, hgroup]

/-- Settles O11: PAR's row of the opcode table, the fault, and the parities, of which POUT holds R_MAX. -/
theorem parAnswersGroupParities : Obligations.ParAnswersGroupParities := by
  refine ⟨fun w => ?_, fun s n r => ⟨execPar_of_refused, fun hn hr => ?_⟩⟩
  · obtain ⟨-, -, -, -, hpar, -⟩ := tableRowsDecode w
    exact hpar
  · exact ⟨toPout (parities (s.operandBits n) r),
      getLsbD_toPout_parities (hr.trans (rMax_le_eight s.cfg)) (s.operandBits n), execPar_of_accepted hn hr⟩

end Sys2Proof.Machine
end

section
/-!
SUPPORT. The encoder (42_encoder.md): the operation ENC (R141, R143), the parities of a finished codeword
(41_placement_parity.md R128), and the properties of an encoder result (R142).
-/

namespace Sys2Proof.Machine

/-! ### ENC (42_encoder.md R141) -/

/-- A codeword that fits the build takes no more parity bits than the build has positions for. -/
theorem pcd_le_rMax {nMax m : Nat} (h : m + pcd m ≤ nMax) : pcd m ≤ rMax nMax :=
  (pcc_add_pcd m).symm.trans_le (pcc_mono h)

theorem execEnc_of_refused {s : State} {m : Nat} (h : m = 0 ∨ m > mMax s.cfg.nMax) :
    execEnc m s = raiseFault .invalidInput s := if_pos h

/-- Settles O12: ENC's row of the opcode table, the fault, and the encoder's result, which fits DOUT and POUT. -/
theorem encAnswersCodeword : Obligations.EncAnswersCodeword := by
  refine ⟨fun w => ?_, fun s m => ⟨execEnc_of_refused, fun h1 hm => ?_⟩⟩
  · obtain ⟨-, -, -, -, -, henc, -⟩ := tableRowsDecode w
    exact henc
  · have hfit := (le_mMax_iff h1).1 hm
    have hr : pcd m ≤ 8 := (pcd_le_rMax hfit).trans (rMax_le_eight s.cfg)
    have hcw := encodeBits_isCodeword (s.operandBits m)
    have hlen := hcw.length
    have hpar := hcw.parity_length
    rw [operandBits_length] at hcw hlen hpar
    exact ⟨pcd m, (encodeBits (s.operandBits m)).codeword, (encodeBits (s.operandBits m)).parity, _, _, pcd_spec m,
      hcw, shows_toPort (hlen.trans_le hfit), shows_toPort (hpar.trans_le hr), execEnc_of_accepted h1 hm⟩

/-! ### The parities of a finished codeword (41_placement_parity.md R128) -/

/-- Taking one index out of the set takes its bit out of the parity. -/
theorem oddOnes_eq_xor_bitAt {c : Bits} {g h : Nat → Bool} {j : Nat} (hj : j < c.length) (hg : g j = true)
    (hh : h j = false) (hgh : ∀ i < c.length, i ≠ j → g i = h i) : oddOnes c g = (bitAt c j ^^ oddOnes c h) := by
  have hperm := List.perm_cons_erase (List.mem_range.2 hj)
  have hrest : ((List.range c.length).erase j).countP (fun i => g i && bitAt c i) =
      ((List.range c.length).erase j).countP (fun i => h i && bitAt c i) :=
    List.countP_congr fun i hi => by
      obtain ⟨hne, hmem⟩ := (List.nodup_range.mem_erase_iff).1 hi
      rw [hgh i (List.mem_range.1 hmem) hne]
  simp only [oddOnes, hperm.countP_eq, List.countP_cons, hg, hh, hrest]
  cases bitAt c j with
  | false => simp
  | true =>
    simp only [Bool.and_self, Bool.and_true, Bool.false_eq_true, if_true, if_false, Bool.true_xor, ← decide_not,
      decide_eq_decide]
    omega

/-- The parity of a whole group is that of its data bits and its own parity slot, as the group holds no other parity
position (41_placement_parity.md R124). -/
theorem oddOnes_group {c : Bits} {r k : Nat} (hk : k < r) (hc : 2 ^ k ≤ c.length) :
    oddOnes c (covers (2 ^ k - 1)) =
      (bitAt c (2 ^ k - 1) ^^ oddOnes c fun i => inGroup (2 ^ k - 1) i && !atParity r i) := by
  have hpos := Nat.two_pow_pos k
  refine oddOnes_eq_xor_bitAt (by omega) (covers_pos_iff.2 rfl) (by simp [isPar_pos hk]) fun i _ hi => ?_
  rw [inGroup_eq, atParity_eq]
  by_cases hp : isPar r i = true
  · obtain ⟨j, -, hj⟩ := isPar_iff.1 hp
    obtain rfl : i = 2 ^ j - 1 := by omega
    have hne : covers (2 ^ k - 1) (2 ^ j - 1) ≠ true := fun h => hi (by rw [covers_pos_iff.1 h])
    simp [hp, hne]
  · simp [hp]

/-- Each parity slot of a codeword holds the parity of its group's data bits, so each group is even
(41_placement_parity.md R128 item 2). -/
theorem IsCodeword.parities_eq_replicate {b c v : Bits} {r : Nat} (h : IsCodeword b r c v)
    (hc : ∀ k, k < r → 2 ^ k ≤ c.length) : parities c r = List.replicate r false := by
  refine bits_ext (by simp) fun k => ?_
  rw [bitAt_parities, bitAt_replicate]
  by_cases hk : k < r
  · rw [oddOnes_group hk (hc k hk), h.placed k hk, h.parity k hk, Bool.xor_self, Bool.and_false]
  · simp [hk]

/-- The bits of a syndrome are the parities recomputed over the received codeword (43_decoder.md R154). -/
theorem IsSyndrome.testBit_eq {c d e : Bits} {r y : Nat} (h : IsSyndrome c r d e y) (k : Nat) :
    y.testBit k = bitAt (parities c r) k := by
  rw [h.mismatch, bitAt_parities]
  by_cases hk : k < r
  · have hr : r = pcc c.length := h.count.unique (pcc_spec _)
    rw [oddOnes_group hk (two_pow_le_of_lt_pcc (hr ▸ hk)), h.expected k hk]
  · simp [hk]

/-- A received codeword whose groups are all even has syndrome 0. -/
theorem IsSyndrome.eq_zero {c d e : Bits} {r y : Nat} (h : IsSyndrome c r d e y)
    (hp : parities c r = List.replicate r false) : y = 0 :=
  Nat.eq_of_testBit_eq fun k => by rw [h.testBit_eq, hp, bitAt_replicate, Nat.zero_testBit]

/-! ### The encoder's result (42_encoder.md R142) -/

/-- The length of a codeword passes the decoder's check (43_decoder.md R152). -/
theorem checkLength_add_pcd {nMax m : Nat} (hm : 1 ≤ m) (hfit : m + pcd m ≤ nMax) :
    checkLength nMax (m + pcd m) = .ok (pcd m) := by
  rw [checkLength, pcc_add_pcd, Nat.add_sub_cancel, if_neg (by omega), if_neg (by omega), if_neg (by simp)]

theorem extract_encodeBits (b : Bits) : extract (encodeBits b).codeword (pcd b.length) = b :=
  (dataSlots_eq _ _).symm.trans (encodeBits_isCodeword b).data

theorem parities_encodeBits (b : Bits) :
    parities (encodeBits b).codeword (pcd b.length) = List.replicate (pcd b.length) false :=
  (encodeBits_isCodeword b).parities_eq_replicate fun k hk => by
    rw [(encodeBits_isCodeword b).length]
    exact two_pow_le_of_lt_pcd hk

/-- The syndrome generator on a codeword: the message, its parity vector, and syndrome 0 (42_encoder.md R142 item 5). -/
theorem syndrome_encodeBits {nMax : Nat} {b : Bits} (hb : 1 ≤ b.length)
    (hfit : (encodeBits b).codeword.length ≤ nMax) :
    syndrome nMax (encodeBits b).codeword = .ok
      { r := pcd b.length, data := b, expected := (encodeBits b).parity, syndrome := 0 } := by
  have hlen := (encodeBits_isCodeword b).length
  have hcheck := checkLength_add_pcd hb (hlen.symm.trans_le hfit)
  rw [← hlen] at hcheck
  have hy := syndrome_of_checkLength hcheck
  obtain ⟨-, hsyn⟩ := syndrome_isSyndrome hy
  have hzero := hsyn.eq_zero (parities_encodeBits b)
  simp only [extract_encodeBits] at hy hzero
  rw [hy, hzero]

/-- Decoding a codeword gives its message back (42_encoder.md R142 item 5). -/
theorem decodeCodeword_encodeBits {nMax : Nat} {b : Bits} (hb : 1 ≤ b.length)
    (hfit : (encodeBits b).codeword.length ≤ nMax) :
    decodeCodeword nMax (encodeBits b).codeword = .ok { status := .noError, message := b, corrected := none } :=
  decodeCodeword_eq (syndrome_encodeBits hb hfit)

/-- Settles O38: each item by its lemma on the encoder's result. -/
theorem encoderResultProperties : Obligations.EncoderResultProperties := by
  intro b hb
  have hcw := encodeBits_isCodeword b
  have hext := extract_encodeBits b
  refine ⟨(encodeBits b).codeword, (encodeBits b).parity, encodeMessage_of_pos hb, hcw.length, ?_, hcw.placed, hext,
    parities_encodeBits b, ?_, fun _ => decodeCodeword_encodeBits hb⟩
  · rw [hcw.length, pcc_add_pcd]
  · rw [hext]
    rfl

end Sys2Proof.Machine
end

section
/-!
SUPPORT. The length check in the terms of the powers of two (43_decoder.md R152, R153), and the operations SYN, LOC and
DEC on the lengths it accepts and refuses (R158 to R160).
-/

namespace Sys2Proof.Machine

/-! ### The length check (43_decoder.md R152, R153) -/

/-- From n = 3 on, n - r data bits take the count r of n unless n is a power of two: of n = 2^j the count is j + 1, and
for the 2^j - j - 1 data bits it leaves, j parity bits are enough (43_decoder.md R153). -/
theorem pcd_sub_pcc_eq_iff {n : Nat} (h : 3 ≤ n) : pcd (n - pcc n) = pcc n ↔ ¬PowerOfTwoLength n := by
  obtain ⟨j, hj⟩ : ∃ j, pcc n = j + 1 := ⟨pcc n - 1, by have := lt_pcc_iff (n := n) (k := 0); omega⟩
  obtain ⟨hle, hlt⟩ := pcc_eq_succ_iff.1 hj
  have hself := Nat.lt_two_pow_self (n := j)
  rw [hj, pcd_eq_succ_iff]
  constructor
  · rintro ⟨hpcd, -⟩ ⟨i, hi, rfl⟩
    have hji : j ≤ i := (Nat.pow_le_pow_iff_right (by decide)).1 hle
    have hij : i < j + 1 := (Nat.pow_lt_pow_iff_right (by decide)).1 hlt
    obtain rfl : j = i := by omega
    omega
  · intro hn
    have hne : n ≠ 2 ^ j := fun he => by
      refine hn ⟨j, ?_, he⟩
      by_contra hj2
      have := Nat.pow_le_pow_right (n := 2) (by decide) (show j ≤ 1 by omega)
      omega
    omega

theorem pcc_lt_self {n : Nat} (h : 3 ≤ n) : pcc n < n := by
  obtain ⟨k, rfl⟩ : ∃ k, n = k + 1 := ⟨n - 1, by omega⟩
  refine Nat.lt_succ_of_le (pcc_le_iff.2 ?_)
  obtain ⟨j, rfl⟩ : ∃ j, k = j + 2 := ⟨k - 2, by omega⟩
  have := Nat.lt_two_pow_self (n := j)
  rw [pow_add]
  omega

theorem checkLength_of_refused {nMax n : Nat} (h : n ≤ 2 ∨ n > nMax) : checkLength nMax n = .error .invalidInput := by
  by_cases h0 : n = 0 ∨ n > nMax
  · rw [checkLength, if_pos h0]
  · have hdata : n - pcc n = 0 := by
      obtain rfl | rfl : n = 1 ∨ n = 2 := by omega
      · rfl
      · rfl
    rw [checkLength, if_neg h0, if_pos hdata]

/-- The check beyond its first two faults, for a length from 3 to N_MAX (43_decoder.md R152). -/
theorem checkLength_eq_ite {nMax n : Nat} (h : 3 ≤ n) (hn : n ≤ nMax) :
    checkLength nMax n = if pcd (n - pcc n) ≠ pcc n then .error .lengthMismatch else .ok (pcc n) := by
  have := pcc_lt_self h
  rw [checkLength, if_neg (by omega), if_neg (by omega)]

theorem three_le_of_powerOfTwoLength {n : Nat} (h : PowerOfTwoLength n) : 3 ≤ n := by
  obtain ⟨j, hj, rfl⟩ := h
  have := Nat.pow_le_pow_right (n := 2) (by decide) hj
  omega

theorem checkLength_of_powerOfTwoLength {nMax n : Nat} (hn : n ≤ nMax) (h : PowerOfTwoLength n) :
    checkLength nMax n = .error .lengthMismatch := by
  have h3 := three_le_of_powerOfTwoLength h
  rw [checkLength_eq_ite h3 hn, if_pos fun he => (pcd_sub_pcc_eq_iff h3).1 he h]

theorem checkLength_of_accepted {nMax n : Nat} (h : 3 ≤ n) (hn : n ≤ nMax) (hp : ¬PowerOfTwoLength n) :
    checkLength nMax n = .ok (pcc n) := by
  rw [checkLength_eq_ite h hn, if_neg (not_not.2 ((pcd_sub_pcc_eq_iff h).2 hp))]

theorem exists_syndrome_of_accepted {s : State} {n : Nat} (h : 3 ≤ n) (hn : n ≤ s.cfg.nMax) (hp : ¬PowerOfTwoLength n) :
    ∃ y, syndrome s.cfg.nMax (s.operandBits n) = .ok y :=
  ⟨_, syndrome_of_checkLength (by rw [operandBits_length]; exact checkLength_of_accepted h hn hp)⟩

/-! ### SYN (43_decoder.md R158) -/

/-- DOUT has room for the data bits, and POUT for the expected parity (43_decoder.md R154, 10_state.md R34). -/
theorem shows_syndrome {s : State} {n : Nat} {y : SyndromeResult} (h : syndrome s.cfg.nMax (s.operandBits n) = .ok y) :
    Shows (toPort s.cfg.nMax y.data) y.data ∧ Shows (toPout y.expected) y.expected := by
  obtain ⟨hn, -, hdata, hexp, -⟩ := syndrome_lengths h
  obtain ⟨hr, -⟩ := checkLength_ok (syndrome_isSyndrome h).1
  rw [operandBits_length] at hr
  have hr8 : y.r ≤ 8 := hr ▸ (pcc_mono hn).trans (rMax_le_eight s.cfg)
  exact ⟨shows_toPort (by omega), shows_toPort (by omega)⟩

/-- Settles O13: SYN's row of the opcode table, the two faults of the length check, and what the syndrome generator
finds, which fits the registers. -/
theorem synAnswersSyndrome : Obligations.SynAnswersSyndrome := by
  refine ⟨fun w => ?_, fun s n => ⟨fun h => execSyn_of_error (checkLength_of_refused h),
    fun hn h => execSyn_of_error (checkLength_of_powerOfTwoLength hn h), fun h3 hn hp => ?_⟩⟩
  · obtain ⟨-, -, -, -, -, -, hsyn, -⟩ := tableRowsDecode w
    exact hsyn
  · obtain ⟨y, hy⟩ := exists_syndrome_of_accepted h3 hn hp
    obtain ⟨-, -, -, -, hsyn⟩ := syndrome_fits hy
    obtain ⟨hd, he⟩ := shows_syndrome hy
    exact ⟨y.r, y.data, y.expected, y.syndrome, _, _, hsyn, hd, he, execSyn_of_ok hy⟩

/-! ### LOC (43_decoder.md R159) -/

theorem execLoc_of_refused {s : State} {n y : Nat} (h : n = 0 ∨ n > s.cfg.nMax) :
    execLoc n y s = raiseFault .invalidInput s := if_pos h

theorem execLoc_of_accepted {s : State} {n y : Nat} (h : 1 ≤ n) (hn : n ≤ s.cfg.nMax) :
    execLoc n y s = .next (s.withOut { Outputs.unassigned s.cfg.nMax with
      status := (locate n y).1, idx := toByte ((locate n y).2.getD 0), syn := toByte y }) :=
  if_neg (by omega)

theorem locate_zero (n : Nat) : locate n 0 = (.noError, none) := rfl

theorem locate_of_le {n y : Nat} (h : 1 ≤ y) (hy : y ≤ n) : locate n y = (.corrected, some (y - 1)) := by
  rw [locate, if_neg (by omega), if_pos hy]

theorem locate_of_gt {n y : Nat} (h : n < y) : locate n y = (.uncorrectable, none) := by
  rw [locate, if_neg (by omega), if_neg (by omega)]

/-- Settles O14: LOC's row of the opcode table, the fault, and the three outcomes of the locator. -/
theorem locAnswersLocation : Obligations.LocAnswersLocation := by
  refine ⟨fun w => ?_, fun s n y => ⟨execLoc_of_refused, fun h hn => ⟨?_, fun h1 hy => ?_, fun hy => ?_⟩⟩⟩
  · obtain ⟨-, -, -, -, -, -, -, hloc, -⟩ := tableRowsDecode w
    exact hloc
  · rintro rfl
    rw [exec, execLoc_of_accepted h hn, locate_zero]
    rfl
  · rw [exec, execLoc_of_accepted h hn, locate_of_le h1 hy]
    rfl
  · rw [exec, execLoc_of_accepted h hn, locate_of_gt hy]
    rfl

/-! ### DEC (43_decoder.md R160) -/

section

variable {s : State} {n : Nat} {y : SyndromeResult}

theorem execDec_of_noError (hy : syndrome s.cfg.nMax (s.operandBits n) = .ok y) (h0 : y.syndrome = 0) :
    execDec n s = .next (s.withOut { Outputs.unassigned s.cfg.nMax with
      status := .noError, dout := toPort s.cfg.nMax y.data, dlen := toByte (n - y.r), pout := toPout y.expected,
      rout := toByte y.r }) := by
  rw [execDec_of_ok hy (decodeCodeword_eq hy), if_pos h0, h0, locate_zero, decResponse, h0]
  rfl

theorem execDec_of_corrected (hy : syndrome s.cfg.nMax (s.operandBits n) = .ok y) (h1 : 1 ≤ y.syndrome)
    (hn : y.syndrome ≤ n) :
    execDec n s = .next (s.withOut { Outputs.unassigned s.cfg.nMax with
      status := .corrected, cvalid := true
      dout := toPort s.cfg.nMax (extract (flipBit (s.operandBits n) (y.syndrome - 1)) y.r), dlen := toByte (n - y.r)
      cout := toPort s.cfg.nMax (flipBit (s.operandBits n) (y.syndrome - 1)), pout := toPout y.expected
      rout := toByte y.r, syn := toByte y.syndrome, idx := toByte (y.syndrome - 1) }) := by
  rw [execDec_of_ok hy (decodeCodeword_eq hy), operandBits_length, if_neg (by omega), if_pos hn, locate_of_le h1 hn]
  rfl

theorem execDec_of_uncorrectable (hy : syndrome s.cfg.nMax (s.operandBits n) = .ok y) (hn : n < y.syndrome) :
    execDec n s = .next (s.withOut { Outputs.unassigned s.cfg.nMax with
      status := .uncorrectable, dout := toPort s.cfg.nMax y.data, dlen := toByte (n - y.r), pout := toPout y.expected,
      rout := toByte y.r, syn := toByte y.syndrome }) := by
  rw [execDec_of_ok hy (decodeCodeword_eq hy), operandBits_length, if_neg (by omega), if_neg (by omega),
    locate_of_gt hn]
  rfl

end

/-- Settles O15: DEC's row of the opcode table, the faults of SYN, and one answer for each outcome of the locator. -/
theorem decAnswersDecodedMessage : Obligations.DecAnswersDecodedMessage := by
  refine ⟨fun w => ?_, fun s n => ⟨fun h => execDec_of_error (checkLength_of_refused h),
    fun hn h => execDec_of_error (checkLength_of_powerOfTwoLength hn h), fun h3 hn hp => ?_⟩⟩
  · obtain ⟨-, -, -, -, -, -, -, -, hdec⟩ := tableRowsDecode w
    exact hdec
  · obtain ⟨y, hy⟩ := exists_syndrome_of_accepted h3 hn hp
    obtain ⟨-, -, -, -, hsyn⟩ := syndrome_fits hy
    obtain ⟨-, -, -, -, hext⟩ := syndrome_lengths hy
    obtain ⟨hd, he⟩ := shows_syndrome hy
    refine ⟨y.r, y.data, y.expected, y.syndrome, _, hsyn, he, fun h0 => ⟨_, hd, execDec_of_noError hy h0⟩,
      fun h1 hyn => ?_, fun hyn => ⟨_, hd, execDec_of_uncorrectable hy hyn⟩⟩
    have hlen : (flipBit (s.operandBits n) (y.syndrome - 1)).length = n := by
      rw [flipBit_length, operandBits_length]
    refine ⟨_, _, _, hlen, fun j hj => ?_, ?_, shows_toPort (hlen.trans_le hn), execDec_of_corrected hy h1 hyn⟩
    · rw [bitAt_flipBit (by rw [operandBits_length]; omega), bitAt_operandBits, decide_eq_true hj, Bool.true_and]
      split <;> simp [*]
    · rw [dataSlots_eq]
      exact shows_toPort (by rw [hext _ hlen]; omega)

end Sys2Proof.Machine
end

section
/-!
SUPPORT. The syndrome as the XOR of one-based positions (43_decoder.md R155), and what flipping a bit does to it, to the
data bits and to a port.
-/

namespace Sys2Proof.Machine

/-! ### The XOR of the positions of the ones (43_decoder.md R155) -/

/-- The one-based positions of the ones of a bit string. -/
def onePositions (c : Bits) : List Nat := ((List.range c.length).filter (bitAt c)).map (· + 1)

/-- The bitwise XOR of the one-based positions of the ones. -/
def positionXor (c : Bits) : Nat := (onePositions c).foldl (· ^^^ ·) 0

/-- A bit of an XOR of numbers is 1 when an odd count of them have it. -/
theorem testBit_foldl_xor (l : List Nat) (a k : Nat) :
    (l.foldl (· ^^^ ·) a).testBit k = (a.testBit k ^^ decide (l.countP (·.testBit k) % 2 = 1)) := by
  induction l generalizing a with
  | nil => simp
  | cons x xs ih =>
    rw [List.foldl_cons, ih, Nat.testBit_xor, List.countP_cons, Bool.xor_assoc]
    congr 1
    cases x.testBit k with
    | false => simp
    | true =>
      simp only [if_true, Bool.true_xor, ← decide_not, decide_eq_decide]
      omega

/-- Bit k of the XOR is the parity of the coverage group of 2^k - 1, whose indices are those with bit k in their
one-based position (41_placement_parity.md R123). -/
theorem testBit_positionXor (c : Bits) (k : Nat) : (positionXor c).testBit k = oddOnes c (covers (2 ^ k - 1)) := by
  simp only [positionXor, onePositions, testBit_foldl_xor, Nat.zero_testBit, Bool.false_xor, List.countP_map,
    List.countP_filter, oddOnes, covers_two_pow_sub_one, Function.comp_apply]

/-- The syndrome is the XOR of the one-based positions of the ones; the groups beyond its r bits are empty, as 2^r
exceeds the length (43_decoder.md R155). -/
theorem IsSyndrome.eq_positionXor {c d e : Bits} {r y : Nat} (h : IsSyndrome c r d e y) : y = positionXor c := by
  refine Nat.eq_of_testBit_eq fun k => ?_
  rw [h.testBit_eq, bitAt_parities, testBit_positionXor]
  by_cases hk : k < r
  · simp [hk]
  · have hlen : c.length + 1 ≤ 2 ^ k := h.count.1.trans (Nat.pow_le_pow_right (by decide) (by omega))
    have hnone : (List.range c.length).countP (fun i => covers (2 ^ k - 1) i && bitAt c i) = 0 :=
      List.countP_eq_zero.2 fun i hi => by
        have hi := List.mem_range.1 hi
        rw [covers_two_pow_sub_one, Nat.testBit_lt_two_pow (by omega)]
        simp
    simp [hk, oddOnes, hnone]

theorem onePositions_operandBits (s : State) (n : Nat) :
    onePositions (s.operandBits n) = ((List.range n).filter fun i => s.din.getLsbD i).map fun i => i + 1 := by
  rw [onePositions, operandBits_length]
  exact congrArg _ (List.filter_congr fun i hi => by simp [List.mem_range.1 hi])

/-- Settles O39: SYN shows the syndrome, which is the XOR of the positions. -/
theorem syndromeIsXorOfOnePositions : Obligations.SyndromeIsXorOfOnePositions := by
  intro s n h3 hn hp
  obtain ⟨y, hy⟩ := exists_syndrome_of_accepted h3 hn hp
  obtain ⟨-, -, -, hlt, hsyn⟩ := syndrome_fits hy
  refine ⟨_, execSyn_of_ok hy, (toByte_toNat hlt).trans ?_⟩
  rw [hsyn.eq_positionXor, ← operandBits_eq, positionXor, onePositions_operandBits]

/-! ### Flipping a bit -/

/-- Flipping a bit flips the parity of the sets that its index is in. -/
theorem oddOnes_flipBit {c : Bits} {i : Nat} (hi : i < c.length) (g : Nat → Bool) :
    oddOnes (flipBit c i) g = (oddOnes c g ^^ g i) := by
  have hlen := flipBit_length c i
  have hrest : ∀ h : Nat → Bool, h i = false → oddOnes (flipBit c i) h = oddOnes c h := fun h hh =>
    oddOnes_congr hlen fun j => by
      rw [bitAt_flipBit hi]
      by_cases hj : j = i <;> simp [hj, hh]
  cases hg : g i with
  | false => rw [hrest g hg, Bool.xor_false]
  | true =>
    have hout (a : Bits) (ha : i < a.length) : oddOnes a g = (bitAt a i ^^ oddOnes a fun j => g j && decide (j ≠ i)) :=
      oddOnes_eq_xor_bitAt ha hg (by simp) fun j _ hj => by simp [hj]
    rw [hout c hi, hout _ (hlen.symm ▸ hi), hrest _ (by simp), bitAt_flipBit hi]
    cases bitAt c i <;> simp

/-- Flipping a bit adds its one-based position to the XOR. -/
theorem positionXor_flipBit {c : Bits} {i : Nat} (hi : i < c.length) :
    positionXor (flipBit c i) = positionXor c ^^^ (i + 1) := by
  refine Nat.eq_of_testBit_eq fun k => ?_
  rw [Nat.testBit_xor, testBit_positionXor, testBit_positionXor, oddOnes_flipBit hi, covers_two_pow_sub_one]

/-- Flipping a bit twice gives the string back. -/
theorem flipBit_flipBit {c : Bits} {i : Nat} (hi : i < c.length) : flipBit (flipBit c i) i = c := by
  refine bits_ext (by simp) fun j => ?_
  rw [bitAt_flipBit (by simpa using hi), bitAt_flipBit hi, Bool.xor_assoc, Bool.xor_self, Bool.xor_false]

/-- The host flips a bit on a port by XOR with that bit (20_memory.md R51). -/
theorem toPort_flipBit {w i : Nat} {c : Bits} (hi : i < c.length) :
    toPort w (flipBit c i) = toPort w c ^^^ BitVec.twoPow w i := by
  refine BitVec.eq_of_getLsbD_eq fun j hj => ?_
  rw [BitVec.getLsbD_xor, getLsbD_toPort, getLsbD_toPort, BitVec.getLsbD_twoPow, bitAt_flipBit hi]
  by_cases hji : j = i
  · subst hji; simp [hj]
  · simp [hj, hji, Ne.symm hji]

theorem flipBit_cons_zero (x : Bool) (c : Bits) : flipBit (x :: c) 0 = (!x) :: c := rfl

theorem flipBit_cons_succ (x : Bool) (c : Bits) (i : Nat) : flipBit (x :: c) (i + 1) = x :: flipBit c i := rfl

/-- Flipping a bit at a data slot flips the data bit whose number is the count of data slots before it
(43_decoder.md R150). -/
theorem extractFrom_flipBit {r i j : Nat} {c : Bits} (hj : j < c.length) (h : isPar r (i + j) = false) :
    slotCount r i j < (extractFrom r i c).length ∧
    extractFrom r i (flipBit c j) = flipBit (extractFrom r i c) (slotCount r i j) := by
  induction c generalizing i j with
  | nil => simp at hj
  | cons x xs ih =>
    cases j with
    | zero =>
      rw [Nat.add_zero] at h
      simp [extractFrom, h, slotCount, flipBit_cons_zero]
    | succ j =>
      obtain ⟨hlt, heq⟩ := ih (i := i + 1) (j := j) (by simpa using hj) (by rw [← h]; congr 1; omega)
      cases hp : isPar r i with
      | true => simp [extractFrom, hp, slotCount_succ, flipBit_cons_succ, hlt, heq]
      | false => simp [extractFrom, hp, slotCount_succ, flipBit_cons_succ, Nat.add_comm 1, hlt, heq]

/-- On DOUT, the data bits of a word with a bit flipped differ from the word's in one bit at most (43_decoder.md
R162). -/
theorem toPort_extract_flipBit {w r i : Nat} {c : Bits} (hi : i < c.length) :
    toPort w (extract (flipBit c i) r) =
      toPort w (extract c r) ^^^ (if isPar r i = false then BitVec.twoPow w (slotCount r 0 i) else 0) := by
  cases hp : isPar r i with
  | true =>
    have hsame : extract (flipBit c i) r = extract c r := extractFrom_set _ _ (by rwa [Nat.zero_add])
    simp [hsame]
  | false =>
    have hflip : slotCount r 0 i < (extract c r).length ∧
        extract (flipBit c i) r = flipBit (extract c r) (slotCount r 0 i) :=
      extractFrom_flipBit hi (by rwa [Nat.zero_add])
    rw [if_pos rfl, hflip.2, toPort_flipBit hflip.1]

end Sys2Proof.Machine
end

section
/-!
SUPPORT. The decoder's guarantee (43_decoder.md section 7): DEC on a codeword of ENC with no bit, one bit and two bits
flipped (R161), and DEC as SYN, LOC and the flip (R162).
-/

namespace Sys2Proof.Machine

/-! ### A codeword on DOUT -/

/-- ENC m answers `o` in `s`, with the codeword `c` on DOUT (42_encoder.md R141, R142). -/
structure EncodedAs (s : State) (m : Nat) (o : Outputs s.cfg.nMax) (c : Bits) : Prop where
  answer : exec (.enc m) s = .next (s.withOut o)
  length : c.length = m + pcd m
  fits : c.length ≤ s.cfg.nMax
  dlen : o.dlen.toNat = c.length
  dout : o.dout = toPort s.cfg.nMax c
  message : extract c (pcd m) = s.operandBits m
  syndrome : positionXor c = 0

theorem exists_encodedAs {s : State} {m : Nat} (h1 : 1 ≤ m) (hm : m ≤ mMax s.cfg.nMax) : ∃ o c, EncodedAs s m o c := by
  have hb : (s.operandBits m).length = m := operandBits_length s m
  have hlen := (encodeBits_isCodeword (s.operandBits m)).length
  have hfit := (le_mMax_iff h1).1 hm
  have hmsg := extract_encodeBits (s.operandBits m)
  have hy := syndrome_encodeBits (nMax := s.cfg.nMax) (by rwa [hb]) (by rw [hlen, hb]; exact hfit)
  rw [hb] at hlen hmsg
  have hmax := s.cfg.le_255
  exact ⟨_, (encodeBits (s.operandBits m)).codeword,
    { answer := execEnc_of_accepted h1 hm
      length := hlen
      fits := hlen.trans_le hfit
      dlen := (toByte_toNat (by omega)).trans hlen.symm
      dout := rfl
      message := hmsg
      syndrome := (syndrome_isSyndrome hy).2.eq_positionXor.symm }⟩

/-! ### A received word on DIN -/

/-- What DEC answers on a received word of the length of a codeword of m data bits, by the XOR of the word's one-based
positions (43_decoder.md R155, R160). -/
structure DecodedAs {nMax : Nat} (m : Nat) (w : Bits) (o : Outputs nMax) : Prop where
  fault : o.fault = .ok
  dlen : o.dlen.toNat = m
  syn : o.syn.toNat = positionXor w
  noError : positionXor w = 0 → o.status = .noError ∧ o.cvalid = false ∧ Shows o.dout (extract w (pcd m))
  corrected : 1 ≤ positionXor w → positionXor w ≤ w.length →
    o.status = .corrected ∧ o.cvalid = true ∧ o.idx.toNat = positionXor w - 1 ∧
    Shows o.cout (flipBit w (positionXor w - 1)) ∧ Shows o.dout (extract (flipBit w (positionXor w - 1)) (pcd m))
  uncorrectable : w.length < positionXor w → o.status = .uncorrectable

theorem extract_length_of_codeword_length {m : Nat} {w : Bits} (hlen : w.length = m + pcd m) :
    (extract w (pcd m)).length = m := by
  rw [extract_length fun k hk => hlen ▸ two_pow_le_of_lt_pcd hk, hlen, Nat.add_sub_cancel]

theorem exists_decodedAs {t : State} {m : Nat} {w : Bits} (h1 : 1 ≤ m) (hlen : w.length = m + pcd m)
    (hfit : w.length ≤ t.cfg.nMax) (hdin : t.din = toPort t.cfg.nMax w) :
    ∃ o, exec (.dec w.length) t = .next (t.withOut o) ∧ DecodedAs m w o := by
  have hmax := t.cfg.le_255
  have hop : t.operandBits w.length = w := by rw [State.operandBits, hdin, fromPort_toPort hfit]
  have hcheck := checkLength_add_pcd (nMax := t.cfg.nMax) h1 (hlen ▸ hfit)
  rw [← hlen] at hcheck
  obtain ⟨y, hy, hr, hd⟩ : ∃ y, syndrome t.cfg.nMax (t.operandBits w.length) = .ok y ∧ y.r = pcd m ∧
      y.data = extract w (pcd m) := ⟨_, (congrArg _ hop).trans (syndrome_of_checkLength hcheck), rfl, rfl⟩
  obtain ⟨-, -, -, hlt, hsyn⟩ := syndrome_fits hy
  have hx := hsyn.eq_positionXor
  rw [← operandBits_eq, hop] at hx
  have hshow : ∀ v : Bits, v.length = w.length → Shows (toPort t.cfg.nMax (extract v (pcd m))) (extract v (pcd m)) :=
    fun v hv => shows_toPort (by rw [extract_length_of_codeword_length (hv.trans hlen)]; omega)
  have hdlen : (toByte (w.length - y.r)).toNat = m := (toByte_toNat (by omega)).trans (by omega)
  have hsynb : (toByte y.syndrome).toNat = positionXor w := (toByte_toNat hlt).trans hx
  rcases locate_cases w.length y.syndrome with ⟨h0, -⟩ | ⟨hpos, hle, -⟩ | ⟨hgt, -⟩
  · refine ⟨_, execDec_of_noError hy h0, ⟨rfl, hdlen, ?_, fun _ => ⟨rfl, rfl, ?_⟩, fun _ _ => ?_, fun _ => ?_⟩⟩
    · exact h0.symm.trans hx
    · rw [hd]
      exact hshow w rfl
    all_goals omega
  · have hcorr := execDec_of_corrected hy hpos hle
    rw [hop, hr, hx] at hcorr
    refine ⟨_, hcorr, ⟨rfl, ?_, ?_, fun _ => ?_, fun _ _ => ⟨rfl, rfl, ?_, ?_, ?_⟩, fun _ => ?_⟩⟩
    · exact hr ▸ hdlen
    · exact hx ▸ hsynb
    · omega
    · exact toByte_toNat (by omega)
    · exact shows_toPort ((flipBit_length w _).trans_le hfit)
    · exact hshow _ (flipBit_length w _)
    · omega
  · refine ⟨_, execDec_of_uncorrectable hy hgt, ⟨rfl, hdlen, hsynb, fun _ => ?_, fun _ _ => ?_, fun _ => rfl⟩⟩
    all_goals omega

/-! ### The received word against the codeword (43_decoder.md R161) -/

/-- Words of one length with the same syndrome and the same data bits are equal: each parity bit is what its group's
data bits leave of its bit of the syndrome. -/
theorem eq_of_positionXor_eq {a b : Bits} {r : Nat} (hl : a.length = b.length) (hr : ∀ k, k < r → 2 ^ k ≤ a.length)
    (hx : positionXor a = positionXor b) (hd : extract a r = extract b r) : a = b := by
  have hdata : ∀ i, (!isPar r i && bitAt a i) = (!isPar r i && bitAt b i) := fun i => by
    have ha := bitAt_placeFrom_extractFrom r 0 a i
    have hb := bitAt_placeFrom_extractFrom r 0 b i
    rw [Nat.zero_add] at ha hb
    rw [← ha, ← hb, hl]
    exact congrArg (fun d => bitAt (placeFrom r 0 b.length d) i) hd
  refine eq_of_extractFrom_eq (i := 0) hl hd fun j hj => ?_
  obtain ⟨k, hk, hjk⟩ := isPar_iff.1 hj
  obtain rfl : j = 2 ^ k - 1 := by omega
  have hgroup : oddOnes a (covers (2 ^ k - 1)) = oddOnes b (covers (2 ^ k - 1)) := by
    rw [← testBit_positionXor, hx, testBit_positionXor]
  have hrest : (oddOnes a fun i => inGroup (2 ^ k - 1) i && !atParity r i) =
      oddOnes b fun i => inGroup (2 ^ k - 1) i && !atParity r i :=
    oddOnes_congr hl fun i => by rw [atParity_eq, Bool.and_assoc, Bool.and_assoc, hdata]
  rwa [oddOnes_group hk (hr k hk), oddOnes_group hk (hl ▸ hr k hk), hrest, Bool.xor_left_inj] at hgroup

theorem exists_bitAt_ne {a b : Bits} (hl : a.length = b.length) (h : a ≠ b) :
    ∃ k < a.length, bitAt a k ≠ bitAt b k := by
  by_contra hall
  push Not at hall
  refine h (bits_ext hl fun k => ?_)
  by_cases hk : k < a.length
  · exact hall k hk
  · rw [bitAt_of_le (by omega), bitAt_of_le (by omega)]

section

variable {s : State} {m : Nat} {o : Outputs s.cfg.nMax} {c : Bits}

/-- DEC on a word of the codeword's length, driven back on DIN with the codeword's length in LEN. -/
theorem EncodedAs.exists_decodedAs (henc : EncodedAs s m o c) (h1 : 1 ≤ m) {w : Bits} {v : BitVec s.cfg.nMax}
    (hw : w.length = c.length) (hv : v = toPort s.cfg.nMax w) :
    ∃ o', exec (.dec o.dlen.toNat) ((s.withOut o).drivePorts s.ctrl v) =
      .next (((s.withOut o).drivePorts s.ctrl v).withOut o') ∧ DecodedAs m w o' := by
  rw [henc.dlen, ← hw]
  exact Machine.exists_decodedAs (t := (s.withOut o).drivePorts s.ctrl v) h1 (hw.trans henc.length)
    (hw.trans_le henc.fits) hv

/-- DOUT with the message on it has the bits that the host drove on DIN. -/
theorem EncodedAs.getLsbD_of_shows (henc : EncodedAs s m o c) {v : BitVec s.cfg.nMax}
    (h : Shows v (extract c (pcd m))) (j : Nat) : v.getLsbD j = (decide (j < m) && s.din.getLsbD j) := by
  rw [h, henc.message, bitAt_operandBits]

/-- Another word of a codeword's length with syndrome 0 does not carry its message. -/
theorem EncodedAs.exists_wrong_bit (henc : EncodedAs s m o c) {w : Bits} (hw : w.length = c.length)
    (hx : positionXor w = 0) (hne : w ≠ c) {v : BitVec s.cfg.nMax} (h : Shows v (extract w (pcd m))) :
    ∃ k, k < m ∧ v.getLsbD k ≠ s.din.getLsbD k := by
  have hlw := extract_length_of_codeword_length (hw.trans henc.length)
  have hlc := extract_length_of_codeword_length henc.length
  have hext : extract w (pcd m) ≠ extract c (pcd m) := fun he =>
    hne (eq_of_positionXor_eq hw (fun k hk => by rw [hw, henc.length]; exact two_pow_le_of_lt_pcd hk)
      (hx.trans henc.syndrome.symm) he)
  obtain ⟨k, hk, hbit⟩ := exists_bitAt_ne (hlw.trans hlc.symm) hext
  rw [hlw] at hk
  refine ⟨k, hk, ?_⟩
  rwa [henc.message, bitAt_operandBits, decide_eq_true hk, Bool.true_and, ← h] at hbit

end

/-- Settles O40: a codeword has syndrome 0, so DEC answers its data bits, the message. -/
theorem encodeThenDecodeReturnsMessage : Obligations.EncodeThenDecodeReturnsMessage := by
  intro s m h1 hm
  obtain ⟨o, c, henc⟩ := exists_encodedAs h1 hm
  obtain ⟨o', ho', hdec⟩ := henc.exists_decodedAs h1 rfl henc.dout
  obtain ⟨hst, hcv, hout⟩ := hdec.noError henc.syndrome
  exact ⟨o, o', henc.answer, ho', hdec.fault, hst, hcv, BitVec.eq_of_toNat_eq (hdec.syn.trans henc.syndrome),
    hdec.dlen, henc.getLsbD_of_shows hout⟩

/-- Settles O41: the syndrome is the one-based position of the flipped bit, and flipping that again restores the
codeword. -/
theorem singleFlipIsCorrected : Obligations.SingleFlipIsCorrected := by
  intro s m h1 hm
  obtain ⟨o, c, henc⟩ := exists_encodedAs h1 hm
  refine ⟨o, henc.answer, fun i hi => ?_⟩
  rw [henc.dlen] at hi
  have hx : positionXor (flipBit c i) = i + 1 := by rw [positionXor_flipBit hi, henc.syndrome, Nat.zero_xor]
  obtain ⟨o', ho', hdec⟩ := henc.exists_decodedAs (w := flipBit c i) (v := o.dout ^^^ BitVec.twoPow s.cfg.nMax i) h1
    (flipBit_length c i) (by rw [henc.dout, toPort_flipBit hi])
  obtain ⟨hst, hcv, hidx, hcout, hout⟩ := hdec.corrected (by omega) (by rw [hx, flipBit_length]; omega)
  rw [hx, Nat.add_sub_cancel] at hidx hcout hout
  rw [flipBit_flipBit hi] at hcout hout
  exact ⟨o', ho', hdec.fault, hst, hdec.syn.trans hx, hidx, hcv, hcout.eq_toPort.trans henc.dout.symm, hdec.dlen,
    henc.getLsbD_of_shows hout⟩

/-- A third flip at another index does not undo two flips at different indices. -/
theorem flipBit_flipBit_flipBit_ne {c : Bits} {i j k : Nat} (hi : i < c.length) (hj : j < c.length) (hk : k < c.length)
    (hij : i ≠ j) (hik : i ≠ k) : flipBit (flipBit (flipBit c i) j) k ≠ c := fun heq => by
  have hbit : bitAt (flipBit (flipBit (flipBit c i) j) k) i = bitAt c i := by rw [heq]
  rw [bitAt_flipBit (by simpa using hk), bitAt_flipBit (by simpa using hj), bitAt_flipBit hi] at hbit
  simp [hij, hik] at hbit

/-- Settles O42: the syndrome is the XOR of two distinct positions, so neither 0 nor one of them. Where DEC flips a
third bit, the corrected word has syndrome 0 and is not the codeword. -/
theorem twoFlipsAreNeverNoError : Obligations.TwoFlipsAreNeverNoError := by
  intro s m h1 hm
  obtain ⟨o, c, henc⟩ := exists_encodedAs h1 hm
  have hdlen := henc.dlen
  refine ⟨o, henc.answer, fun i j hi hj hij => ?_⟩
  rw [hdlen] at hi hj
  have hj' : j < (flipBit c i).length := by rwa [flipBit_length]
  have hlen : (flipBit (flipBit c i) j).length = c.length := by rw [flipBit_length, flipBit_length]
  have hx : positionXor (flipBit (flipBit c i) j) = (i + 1) ^^^ (j + 1) := by
    rw [positionXor_flipBit hj', positionXor_flipBit hi, henc.syndrome, Nat.zero_xor]
  have hne0 : (i + 1) ^^^ (j + 1) ≠ 0 := Nat.xor_ne_zero_iff.2 (by omega)
  have hnei : (i + 1) ^^^ (j + 1) ≠ i + 1 := fun h => by simp at h
  obtain ⟨o', ho', hdec⟩ := henc.exists_decodedAs
    (v := o.dout ^^^ BitVec.twoPow s.cfg.nMax i ^^^ BitVec.twoPow s.cfg.nMax j) h1 hlen
    (by rw [henc.dout, toPort_flipBit hj', toPort_flipBit hi])
  have hsyn := hdec.syn
  refine ⟨o', ho', hsyn.trans hx, fun h => hne0 ?_, fun hgt => hdec.uncorrectable (by omega), fun hle => ?_⟩
  · rw [← hx, ← hsyn, h]
    rfl
  · obtain ⟨hst, -, -, -, hout⟩ := hdec.corrected (by omega) (by omega)
    refine ⟨hst, henc.exists_wrong_bit ((flipBit_length _ _).trans hlen) ?_
      (flipBit_flipBit_flipBit_ne hi hj (by omega) hij (by omega)) hout⟩
    rw [positionXor_flipBit (by omega), Nat.sub_add_cancel (by omega), Nat.xor_self]

/-! ### DEC as SYN, LOC and the flip (43_decoder.md R162) -/

/-- The decoded message is the data bits received, but for the one at the located index, if that is a data slot. -/
theorem toPort_decoded_message {s : State} {n : Nat} {y : SyndromeResult} {d : Decoded}
    (hy : syndrome s.cfg.nMax (s.operandBits n) = .ok y) (hd : decodeCodeword s.cfg.nMax (s.operandBits n) = .ok d) :
    toPort s.cfg.nMax d.message = toPort s.cfg.nMax y.data ^^^
      (if d.status = .corrected ∧ isPar y.r ((locate n y.syndrome).2.getD 0) = false then
        BitVec.twoPow s.cfg.nMax (slotCount y.r 0 ((locate n y.syndrome).2.getD 0)) else 0) := by
  have hdata : y.data = extract (s.operandBits n) y.r := by rw [(syndrome_isSyndrome hy).2.data, dataSlots_eq]
  rw [decodeCodeword_eq hy, operandBits_length] at hd
  cases hd
  rcases locate_cases n y.syndrome with ⟨h0, h⟩ | ⟨h1, hyn, h⟩ | ⟨hyn, h⟩
  · simp [h0]
  · rw [if_neg (by omega), if_pos hyn, h, hdata]
    simp only [true_and, Option.getD_some]
    exact toPort_extract_flipBit (by rw [operandBits_length]; omega)
  · rw [if_neg (by omega), if_neg (by omega)]
    simp

/-- Settles O43: all but DOUT by the definitions, as the registers hold SYN's syndrome and LOC's index whole. -/
theorem decIsSynThenLocThenFlip : Obligations.DecIsSynThenLocThenFlip := by
  intro s n h3 hn hp
  obtain ⟨y, hy⟩ := exists_syndrome_of_accepted h3 hn hp
  obtain ⟨d, hd⟩ : ∃ d, decodeCodeword s.cfg.nMax (s.operandBits n) = .ok d := ⟨_, decodeCodeword_eq hy⟩
  obtain ⟨hr, -, -, hlt, -⟩ := syndrome_fits hy
  have hsyn := toByte_toNat hlt
  have hidx : (toByte ((locate n y.syndrome).2.getD 0)).toNat = (locate n y.syndrome).2.getD 0 :=
    (toByte_locate_index_toNat hlt).trans (locate_index n y.syndrome).symm
  have hst := (decodeCodeword_located hy hd).1
  rw [operandBits_length] at hst
  refine ⟨_, _, _, execSyn_of_ok hy, execLoc_of_accepted (by omega) hn, execDec_of_ok hy hd, rfl, rfl, rfl, rfl, ?_, ?_,
    ?_⟩
  · simp only [decResponse, hsyn, hst]
  · simp only [decResponse, hsyn]
  · simp only [decResponse, hr, hidx, atParity_eq]
    rw [List.range_eq_range']
    exact toPort_decoded_message hy hd

end Sys2Proof.Machine
end

section
/-!
SUPPORT. The words that name no operation (60_exceptions.md R203, 30_encoding.md R74), and the fault response that they
and every other fault get (60_exceptions.md R205).
-/

namespace Sys2Proof.Machine

/-! ### The words that decode (30_encoding.md R74, R75) -/

/-- A word is its five fields; with the reserved ones 0, it is the assembled word of the other three (30_encoding.md
R71, R79). -/
theorem eq_ctrlWord_of_reserved_zero {w : Word} (h1 : ctrlRsv1 w = 0) (h0 : ctrlRsv0 w = 0) :
    w = ctrlWord (ctrlOp w).toNat (ctrlLen w) (ctrlArg w) := by
  have e1 := congrArg BitVec.toNat h1
  have e0 := congrArg BitVec.toNat h0
  apply BitVec.eq_of_toNat_eq
  rw [ctrlWord_toNat (ctrlOp w).isLt (ctrlLen_lt w) (ctrlArg_lt w)]
  simp only [ctrlRsv1, ctrlRsv0, ctrlOp, ctrlLen, ctrlArg, BitVec.extractLsb'_toNat, Nat.shiftRight_eq_div_pow,
    BitVec.ofNat_eq_ofNat, BitVec.toNat_ofNat] at e1 e0 ⊢
  omega

theorem selects_ctrlOp_of_reserved_zero {w : Word} (h1 : ctrlRsv1 w = 0) (h0 : ctrlRsv0 w = 0) :
    Selects w (ctrlOp w).toNat := by
  have hmasked := Laws.ctrlWord_masked (ctrlOp w).isLt (ctrlLen_lt w) (ctrlArg_lt w)
  rwa [← eq_ctrlWord_of_reserved_zero h1 h0] at hmasked

theorem decode_of_reserved_ne_zero {w : Word} (h : ctrlRsv1 w ≠ 0 ∨ ctrlRsv0 w ≠ 0) :
    decode w = .error .reservedNonzero := if_pos h

theorem decode_of_noSuchOp {w : Word} (h1 : ctrlRsv1 w = 0) (h0 : ctrlRsv0 w = 0)
    (hop : (ctrlOp w).toNat = 0 ∨ 10 ≤ (ctrlOp w).toNat) : decode w = .error .noSuchOp := by
  rw [decode, if_neg (by simp [h1, h0])]
  rcases hop with hop | hop
  · rw [hop]
    rfl
  · obtain ⟨k, hk⟩ := Nat.exists_eq_add_of_le' hop
    rw [hk]
    rfl

/-- A word that fails one of the checks of R74, on OP, RSV0 and RSV1, is rejected. -/
theorem exists_decode_error {w : Word}
    (h : ctrlOp w = 0 ∨ 10 ≤ ctrlOp w ∨ ctrlRsv0 w ≠ 0 ∨ ctrlRsv1 w ≠ 0) : ∃ e, decode w = .error e := by
  by_cases hr : ctrlRsv1 w ≠ 0 ∨ ctrlRsv0 w ≠ 0
  · exact ⟨_, decode_of_reserved_ne_zero hr⟩
  · obtain ⟨h1, h0⟩ : ctrlRsv1 w = 0 ∧ ctrlRsv0 w = 0 := by simpa using hr
    refine ⟨_, decode_of_noSuchOp h1 h0 ?_⟩
    rcases h with h | h | h | h
    · exact .inl (by rw [h]; rfl)
    · exact .inr (BitVec.le_def.1 h)
    · exact absurd h0 h
    · exact absurd h1 h

theorem selects_of_decode_ok {w : Word} {i : Instr} (h : decode w = .ok i) : ∃ c, 1 ≤ c ∧ c ≤ 9 ∧ Selects w c := by
  have hlegal : ¬(ctrlOp w = 0 ∨ 10 ≤ ctrlOp w ∨ ctrlRsv0 w ≠ 0 ∨ ctrlRsv1 w ≠ 0) := fun hbad => by
    obtain ⟨e, he⟩ := exists_decode_error hbad
    cases h.symm.trans he
  push Not at hlegal
  obtain ⟨hop, hop', h0, h1⟩ := hlegal
  refine ⟨(ctrlOp w).toNat, ?_, ?_, selects_ctrlOp_of_reserved_zero h1 h0⟩
  · exact Nat.pos_of_ne_zero fun hz => hop (BitVec.eq_of_toNat_eq hz)
  · exact Nat.le_of_not_lt fun hgt => hop' (BitVec.le_def.2 hgt)

theorem exists_decode_ok_of_selects {w : Word} {c : Nat} (h1 : 1 ≤ c) (h9 : c ≤ 9) (h : Selects w c) :
    ∃ i, decode w = .ok i := by
  obtain ⟨pcd, pcc, pos, plc, par, enc, syn, loc, dec⟩ := tableRowsDecode w
  interval_cases c
  · exact ⟨_, pcd h⟩
  · exact ⟨_, pcc h⟩
  · exact ⟨_, pos h⟩
  · exact ⟨_, plc h⟩
  · exact ⟨_, par h⟩
  · exact ⟨_, enc h⟩
  · exact ⟨_, syn h⟩
  · exact ⟨_, loc h⟩
  · exact ⟨_, dec h⟩

/-- Settles O5: a word with an illegal field is rejected, and the words that are not are the rows of the table. -/
theorem illegalWordsGetIllegalOp : Obligations.IllegalWordsGetIllegalOp := by
  refine ⟨fun s rest hh hbad => ?_, fun w => ⟨fun ⟨_, hi⟩ => selects_of_decode_ok hi,
    fun ⟨_, h1, h9, hs⟩ => exists_decode_ok_of_selects h1 h9 hs⟩⟩
  obtain ⟨e, he⟩ := exists_decode_error hbad
  exact (step_undisturbed hh).trans (runRequest_of_error he)

/-! ### The fault response (60_exceptions.md R205) -/

/-- A request answers without fault, or with the fault response of some kind. -/
theorem runRequest_ok_or_faultResponse (s : State) :
    ∃ o, runRequest s = .next (s.withOut o) ∧ (o.fault = .ok ∨ ∃ k, o = Outputs.faultResponse s.cfg.nMax k) := by
  rcases runRequest_cases s with ⟨i, -, h⟩ | ⟨e, -, h⟩
  · obtain ⟨o, ho, -, hf⟩ := exec_responds i s
    exact ⟨o, h.trans ho, hf⟩
  · exact ⟨_, h, .inr ⟨_, rfl⟩⟩

/-- Settles O18: the response has FAULT 0 or is the fault response, whose other registers are unassigned. -/
theorem faultLeavesOnlyItsCode : Obligations.FaultLeavesOnlyItsCode := by
  intro s rest hh
  obtain ⟨o, ho, hf⟩ := runRequest_ok_or_faultResponse (s.withHost rest)
  refine ⟨o, (step_undisturbed hh).trans ho, fun hne => ?_, rfl, rfl, rfl⟩
  rcases hf with hok | ⟨k, rfl⟩
  · exact absurd (congrArg FaultCode.code hok) hne
  · rfl

end Sys2Proof.Machine
end

section
/-!
SUPPORT. Which fault each operation raises: InvalidInput under the conditions of its row (60_exceptions.md R201),
LengthMismatch for a length that is a power of two (R202), and otherwise none.
-/

namespace Sys2Proof.Machine

/-- The condition of the operation's row in the table of R201. -/
def InvalidOperands (nMax : Nat) : Instr → Prop
  | .pcd _ => False
  | .pcc _ => False
  | .pos r => r > rMax nMax
  | .plc m r => r > rMax nMax ∨ m + r > nMax
  | .par n r => n > nMax ∨ r > rMax nMax
  | .enc m => m = 0 ∨ m > mMax nMax
  | .syn n => n = 0 ∨ n > nMax ∨ n = 1 ∨ n = 2
  | .loc n _ => n = 0 ∨ n > nMax
  | .dec n => n = 0 ∨ n > nMax ∨ n = 1 ∨ n = 2

/-- The operation is SYN or DEC of a length that the decoder's cross-check refuses (R202). -/
def MismatchedLength (nMax : Nat) (i : Instr) : Prop :=
  ∃ n, (i = .syn n ∨ i = .dec n) ∧ n ≤ nMax ∧ PowerOfTwoLength n

/-- A length that is a power of two from 4 on is none of those that R201 refuses, so no operation has both faults. -/
theorem MismatchedLength.not_invalidOperands {nMax : Nat} {i : Instr} (h : MismatchedLength nMax i) :
    ¬InvalidOperands nMax i := by
  obtain ⟨n, hi, hn, hp⟩ := h
  have h3 := three_le_of_powerOfTwoLength hp
  rcases hi with rfl | rfl <;> simp only [InvalidOperands] <;> omega

theorem exec_of_invalidOperands {i : Instr} {s : State} (h : InvalidOperands s.cfg.nMax i) :
    exec i s = raiseFault .invalidInput s := by
  cases i with
  | pcd m => exact h.elim
  | pcc n => exact h.elim
  | pos r => exact execPos_of_gt h
  | plc m r => exact execPlc_of_refused h
  | par n r => exact execPar_of_refused h
  | enc m => exact execEnc_of_refused h
  | syn n => exact execSyn_of_error (checkLength_of_refused (by simp only [InvalidOperands] at h; omega))
  | loc n y => exact execLoc_of_refused h
  | dec n => exact execDec_of_error (checkLength_of_refused (by simp only [InvalidOperands] at h; omega))

theorem exec_of_mismatchedLength {i : Instr} {s : State} (h : MismatchedLength s.cfg.nMax i) :
    exec i s = raiseFault .lengthMismatch s := by
  obtain ⟨n, rfl | rfl, hn, hp⟩ := h
  · exact execSyn_of_error (checkLength_of_powerOfTwoLength hn hp)
  · exact execDec_of_error (checkLength_of_powerOfTwoLength hn hp)

/-- What SYN and DEC accept is what the syndrome generator accepts. -/
theorem exists_syndrome_of_valid {s : State} {i : Instr} {n : Nat} (hi : i = .syn n ∨ i = .dec n)
    (hv : ¬(n = 0 ∨ n > s.cfg.nMax ∨ n = 1 ∨ n = 2)) (hm : ¬MismatchedLength s.cfg.nMax i) :
    ∃ y, syndrome s.cfg.nMax (s.operandBits n) = .ok y := by
  have hn : n ≤ s.cfg.nMax := by omega
  exact exists_syndrome_of_accepted (by omega) hn fun hp => hm ⟨n, hi, hn, hp⟩

theorem exec_of_valid {i : Instr} {s : State} (hv : ¬InvalidOperands s.cfg.nMax i)
    (hm : ¬MismatchedLength s.cfg.nMax i) : ∃ o, exec i s = .next (s.withOut o) ∧ o.fault = .ok := by
  cases i with
  | pcd m => exact ⟨_, rfl, rfl⟩
  | pcc n => exact ⟨_, rfl, rfl⟩
  | pos r => exact ⟨_, execPos_of_le (not_lt.1 hv), rfl⟩
  | plc m r =>
    obtain ⟨hr, hfit⟩ := not_or.1 hv
    exact ⟨_, execPlc_of_accepted (not_lt.1 hr) (not_lt.1 hfit), rfl⟩
  | par n r =>
    obtain ⟨hn, hr⟩ := not_or.1 hv
    exact ⟨_, execPar_of_accepted (not_lt.1 hn) (not_lt.1 hr), rfl⟩
  | enc m =>
    obtain ⟨h0, hmax⟩ := not_or.1 hv
    exact ⟨_, execEnc_of_accepted (Nat.pos_of_ne_zero h0) (not_lt.1 hmax), rfl⟩
  | syn n =>
    obtain ⟨y, hy⟩ := exists_syndrome_of_valid (.inl rfl) hv hm
    exact ⟨_, execSyn_of_ok hy, rfl⟩
  | loc n y =>
    obtain ⟨h0, hn⟩ := not_or.1 hv
    exact ⟨_, execLoc_of_accepted (Nat.pos_of_ne_zero h0) (not_lt.1 hn), rfl⟩
  | dec n =>
    obtain ⟨y, hy⟩ := exists_syndrome_of_valid (.inr rfl) hv hm
    exact ⟨_, execDec_of_ok hy (decodeCodeword_eq hy), rfl⟩

/-- FAULT of an operation's response, in the conditions of R201 and R202. -/
theorem exec_fault_iff (i : Instr) (s : State) :
    ∃ o, exec i s = .next (s.withOut o) ∧ (o.fault = .invalidInput ↔ InvalidOperands s.cfg.nMax i) ∧
      (o.fault = .lengthMismatch ↔ MismatchedLength s.cfg.nMax i) := by
  by_cases hm : MismatchedLength s.cfg.nMax i
  · exact ⟨_, exec_of_mismatchedLength hm, iff_of_false nofun hm.not_invalidOperands, iff_of_true rfl hm⟩
  by_cases hv : InvalidOperands s.cfg.nMax i
  · exact ⟨_, exec_of_invalidOperands hv, iff_of_true rfl hv, iff_of_false nofun hm⟩
  · obtain ⟨o, ho, hok⟩ := exec_of_valid hv hm
    exact ⟨o, ho, iff_of_false (by simp [hok]) hv, iff_of_false (by simp [hok]) hm⟩

/-- Settles O19: the condition of each operation's row is what `exec_fault_iff` says of InvalidInput. -/
theorem invalidInputExactlyWhen : Obligations.InvalidInputExactlyWhen := by
  intro i s
  obtain ⟨o, ho, hinvalid, -⟩ := exec_fault_iff i s
  exact ⟨o, ho, by cases i <;> exact hinvalid⟩

/-- Settles O20: `exec_fault_iff` for LengthMismatch, and the powers of two as the lengths that fail the cross-check. -/
theorem lengthMismatchExactlyWhen : Obligations.LengthMismatchExactlyWhen := by
  refine ⟨fun i s => ?_, fun n h => (not_congr (pcd_sub_pcc_eq_iff h)).trans not_not⟩
  obtain ⟨o, ho, -, hmismatch⟩ := exec_fault_iff i s
  exact ⟨o, ho, hmismatch⟩

end Sys2Proof.Machine
end

section
/-!
SUPPORT. Reset, and what a broken obligation of the host leaves (70_reset_and_hazards.md R230 to R232, R234, R235).
-/

namespace Sys2Proof.Machine

/-! ### A request after a broken obligation (R235) -/

/-- The step of a request in whose flight the host broke R234 takes that interaction off the list and leaves some
values in the output registers; the ports hold what the host drives at the end of the flight. -/
theorem step_of_broken_flight {s : State} {rest : List (HostEvent s.cfg.nMax)} {f : Flight s.cfg.nMax}
    (hf : f.keepsObligation = false) (h : s.host = .request f :: rest) :
    ∃ (c : Word) (d : BitVec s.cfg.nMax) (free : Outputs s.cfg.nMax) (k : Nat),
      step s = .next ⟨s.cfg, c, d, free, rest, k⟩ ∧
      (∀ c' d', f = .portsChanged c' d' → c = c' ∧ d = d') ∧ (f = .overlapped → c = s.ctrl ∧ d = s.din) := by
  cases f with
  | undisturbed => cases hf
  | resetArrives => cases hf
  | portsChanged c d =>
    refine ⟨c, d, _, _, step_cons h, fun c' d' he => ?_, nofun⟩
    cases he
    exact ⟨rfl, rfl⟩
  | overlapped => exact ⟨s.ctrl, s.din, _, _, step_cons h, nofun, fun _ => ⟨rfl, rfl⟩⟩

/-- Settles O29: the broken request leaves some state of the same build, and a response depends on the request alone
(O30), so the next request gets the one it gets from the reset outputs. -/
theorem exactResponseAfterBrokenObligation : Obligations.ExactResponseAfterBrokenObligation := by
  intro s rest f hf hh
  obtain ⟨c, d, free, k, hstep, hchanged, hoverlapped⟩ := step_of_broken_flight hf hh
  obtain ⟨-, o, hreset, hfree⟩ :=
    responseDependsOnRequestAlone ⟨s.cfg, c, d, Outputs.reset s.cfg.nMax, [], 0⟩ free rest k
  exact ⟨c, d, free, o, k, hstep, hchanged, hoverlapped, (step_undisturbed rfl).trans hfree, hreset⟩

/-! ### Reset (R230, R231) -/

/-- Settles O25: the meaning of the reset event is `resetOutputs`, and the machine starts with its registers. -/
theorem resetGivesResetValues : Obligations.ResetGivesResetValues :=
  ⟨fun _ _ h => step_cons h, rfl, by decide, by decide⟩

/-- Settles O26: the meaning of a request that reset abandons is that of reset. -/
theorem resetAbandonsRequestInFlight : Obligations.ResetAbandonsRequestInFlight := fun _ _ h => step_cons h

/-! ### What else the host does (R232) -/

/-- Only a request can break R234. -/
theorem HostEvent.keepsObligation_of_ne_request {n : Nat} {e : HostEvent n} (h : ∀ f, e ≠ .request f) :
    e.keepsObligation = true := by
  cases e with
  | request f => exact absurd rfl (h f)
  | _ => rfl

/-- Settles O28: of the three kinds of interaction that keep R234, the one left has an effect on the ports at most. -/
theorem onlyResponsesAndResetChangeOutputs : Obligations.OnlyResponsesAndResetChangeOutputs := by
  intro s hother
  cases h : s.host with
  | nil => exact ⟨s.host, s.ctrl, s.din, step_idle h⟩
  | cons e rest =>
    obtain ⟨hreset, hreq⟩ := hother e rest h
    rcases interact_cases (s := s.withHost rest) (HostEvent.keepsObligation_of_ne_request hreq) with
      ⟨he, -⟩ | ⟨he, -⟩ | ⟨-, -, c, d, hs⟩
    · exact absurd he (hreq _)
    · exact (he.elim hreset (hreq _)).elim
    · exact ⟨rest, c, d, (step_cons h).trans hs⟩

end Sys2Proof.Machine
end
